-- ==== Sys2Proof/Word.lean ====
section
/-! DEFINITION. The fixed widths of the block (00_scope.md section 5, rule R11): every value has one width,
written in its type, so that no rule can truncate or extend a value silently. -/

namespace Sys2Proof

/-- KEY_W = BLOCK_W = 64: a master key, or a block (R58). -/
abbrev Word64 := BitVec 64

/-- RK_W = 48: a round key, or an expanded half. -/
abbrev Word48 := BitVec 48

/-- HALF_W = 32: a data half. -/
abbrev Word32 := BitVec 32

/-- CD_W = 28: a key half. -/
abbrev Word28 := BitVec 28

/-- One command word, `cmd[74:0]` (R70). -/
abbrev CommandWord := BitVec 75

/-- One response word, `resp[67:0]` (R70). -/
abbrev ResponseWord := BitVec 68

/-- One byte of a text, on the host's side only (R57, R173). -/
abbrev Byte := BitVec 8

end Sys2Proof
end

