-- ==== Sys2Proof/Config.lean ====
section
/-! DEFINITION. What an implementation fixes. The block leaves no parameter open (00_scope.md section 5;
92_eei_decisions.md, Open parameters): here are the shapes of the ROM tables, the fixed numbers, and the
values the spec leaves open, host-side (93_implementation_defined.md U11, 91_not_in_source.md N12) or never formed
(20_memory.md R51), as constants without a body. -/

namespace Sys2Proof

/-- N_ROUNDS: rounds of a block, and round keys of a key. -/
abbrev Config.nRounds : Nat := 16

/-- A permutation table of shape (`lin`, `lout`): entry i, counted from 1, is the DES position of the input bit
that becomes output position i (R5, R90). The shape is in the type, so an operand of another width cannot be
written down (R11, 93_implementation_defined.md U3). -/
structure PermTable (lin lout : Nat) where
  entries : Vector Nat lout
deriving DecidableEq, Repr

/-- An S-box: 4 rows of 16 columns of 4-bit values (40_tables.md section 4). -/
structure SboxTable where
  rows : Vector (Vector (BitVec 4) 16) 4
deriving DecidableEq, Repr

/-- What the host's `binaryToHex` gives for a bit string whose length is no multiple of 4 (R172, U11, N12):
open, so no value can be proved of it. Log entry 12. -/
opaque Config.binaryToHexRagged : List Bool → List Char

/-- What the host's `hexToText` takes for the bytes of an odd number of hex digits (R174, U11, N12): open, so
no value can be proved of it. Log entry 12. -/
opaque Config.hexToBytesOdd : List Char → List Byte

/-- What the host's `splitIntoBlocks` gives for a block length of 0 (R175, N12 e): open, so no value can be proved of
it. Log entry 20. -/
opaque Config.splitByZero : List Char → List (List Char)

/-- What a read of a ROM table gives for an index out of its range: R51 gives it no behaviour and no rule forms such
an index, so no value can be proved of it. The first argument is the table's entries. Log entry 19. -/
opaque Config.romOutOfRange : List Nat → Nat → Nat

end Sys2Proof
end

