-- ==== Sys2Proof/Machine/Response.lean ====
section
/-! DEFINITION. Error names, status codes and responses (30_encoding.md rules R76, R77; 60_exceptions.md rule
R190). -/

namespace Sys2Proof.Machine

/-- The seven error names (R190): DOC0's four, and this spec's own three. -/
inductive ErrorName where
  /-- Code 1, raised by the host's codec only (R191). -/
  | invalidEncoding
  /-- Code 2, LOADKEY with `dlen != 64` (R193). -/
  | invalidKeyLength
  /-- Code 3, ENC or DEC with `dlen != 64` (R194). -/
  | lengthMismatch
  /-- Code 4, raised by the host's codec only (R191). -/
  | decodeError
  /-- Code 5, ENC or DEC with `KVALID = 0` (R195). -/
  | keyNotReady
  /-- Code 6, LOADKEY with `KVALID = 1` (R196). -/
  | keyLocked
  /-- Code 7, a reserved opcode (R197). -/
  | illegalCommand
deriving DecidableEq, Repr, Inhabited

/-- The status of a response: success, or one of the errors (R76). -/
inductive Status where
  | ok
  | error (e : ErrorName)
deriving DecidableEq, Repr

/-- The status code of an error (R76, R190). -/
def ErrorName.code : ErrorName → Nat
  | .invalidEncoding => 1
  | .invalidKeyLength => 2
  | .lengthMismatch => 3
  | .decodeError => 4
  | .keyNotReady => 5
  | .keyLocked => 6
  | .illegalCommand => 7

/-- The status code, 0 for `OK` (R76). -/
def Status.code : Status → Nat
  | .ok => 0
  | .error e => e.code

/-- The status a code stands for; a code is three bits wide (R76, STATUS_W). -/
def statusOfCode (c : BitVec 3) : Status :=
  if c = 0#3 then .ok
  else if c = 1#3 then .error .invalidEncoding
  else if c = 2#3 then .error .invalidKeyLength
  else if c = 3#3 then .error .lengthMismatch
  else if c = 4#3 then .error .decodeError
  else if c = 5#3 then .error .keyNotReady
  else if c = 6#3 then .error .keyLocked
  else .error .illegalCommand

/-- Whether the block itself raises the error; the other two belong to the host's codec (R76, R191). -/
def ErrorName.raisedByBlock : ErrorName → Bool
  | .invalidEncoding => false
  | .decodeError => false
  | .invalidKeyLength => true
  | .lengthMismatch => true
  | .keyNotReady => true
  | .keyLocked => true
  | .illegalCommand => true

/-- One response, the triple (status, has_data, data) of R34, R77. -/
structure Response where
  status : Status
  hasData : Bool
  data : Word64
deriving DecidableEq, Repr

/-- The response `respond(status, d)` appends (R78): `data` is zero where there is no result. -/
def mkResponse (status : Status) (d : Option Word64) : Response :=
  match d with
  | some v => { status := status, hasData := true, data := v }
  | none => { status := status, hasData := false, data := 0 }

end Sys2Proof.Machine
end

