-- ==== Sys2Proof/Syntax.lean ====
section
/-! DEFINITION. The command set `DESCORE-CMD-1` (30_encoding.md rule R73): one constructor per row of
spec/opcode_table.json. Every constructor carries both operand fields of the word, the ignored ones too, so
that no bit of a command word is lost between decoding and encoding (R70, R82). -/

namespace Sys2Proof

/-- A command: its opcode (the constructor), the declared operand length `dlen` in bits (R72) and the operand
`data`, DES position k at `data[64-k]` (R55, R74). -/
inductive Instr where
  /-- op 0, do nothing (R160). -/
  | nop (dlen : BitVec 8) (data : Word64)
  /-- op 1, load a master key and derive the round keys (R110). -/
  | loadkey (dlen : BitVec 8) (data : Word64)
  /-- op 2, encrypt one block (R130). -/
  | enc (dlen : BitVec 8) (data : Word64)
  /-- op 3, decrypt one block (R133). -/
  | dec (dlen : BitVec 8) (data : Word64)
  /-- op 4, discard the cipher instance (R162). -/
  | clear (dlen : BitVec 8) (data : Word64)
  /-- op 5, reserved (R164). -/
  | reserved5 (dlen : BitVec 8) (data : Word64)
  /-- op 6, reserved (R164). -/
  | reserved6 (dlen : BitVec 8) (data : Word64)
  /-- op 7, reserved (R164). -/
  | reserved7 (dlen : BitVec 8) (data : Word64)
deriving DecidableEq, Repr

end Sys2Proof
end

