-- ==== Sys2Proof/WellFormed.lean ====
section
/-! DEFINITION. Well-formedness. Widths live in the types, so a command has nothing left to check: all 2^75
command words decode and none is refused (30_encoding.md R71, R81; 60_exceptions.md R211 c). What can be ill
formed is a number offered as a command word, a response, and a ROM table. -/

namespace Sys2Proof

/-- Every command is well formed: every `dlen` and every `data` is legal under every opcode (R81, R82). -/
def Instr.wf : Instr → Bool
  | .nop _ _ => true
  | .loadkey _ _ => true
  | .enc _ _ => true
  | .dec _ _ => true
  | .clear _ _ => true
  | .reserved5 _ _ => true
  | .reserved6 _ _ => true
  | .reserved7 _ _ => true

/-- A number is a command word when it fits the one format, 75 bits (R70). -/
def commandWordWf (w : Nat) : Bool := w < 2 ^ 75

/-- A response has one of the five shapes of R77: a result comes with status `OK`; without a result `data` is
zero; an error is one of those the block raises. -/
def Machine.Response.wf (r : Machine.Response) : Bool :=
  match r.status, r.hasData with
  | .ok, true => true
  | .ok, false => r.data == 0
  | .error e, false => e.raisedByBlock && r.data == 0
  | .error _, true => false

/-- A permutation table's entries are DES positions of its input (R5, R51). -/
def PermTable.wf {lin lout : Nat} (T : PermTable lin lout) : Bool :=
  T.entries.toList.all fun p => 1 ≤ p && p ≤ lin

/-- Every row of an S-box holds each of 0..15 exactly once (R107 g). -/
def SboxTable.wf (S : SboxTable) : Bool :=
  S.rows.toList.all fun row => (List.range 16).all fun v => (row.toList.map BitVec.toNat).count v == 1

end Sys2Proof
end

