-- ==== Sys2Proof/Decode.lean ====
section
/-! DEFINITION. The command and response formats (30_encoding.md rules R70 to R73, R76, R77): decoding a
command word, encoding one, and the response word. Bit numbers are integer indices, bit 0 the least
significant (R70). -/

namespace Sys2Proof

/-- `op = cmd[74:72]`. -/
def opField (w : CommandWord) : BitVec 3 := w.extractLsb' 72 3

/-- `dlen = cmd[71:64]`. -/
def dlenField (w : CommandWord) : BitVec 8 := w.extractLsb' 64 8

/-- `data = cmd[63:0]`. -/
def dataField (w : CommandWord) : Word64 := w.extractLsb' 0 64

/-- The command a word stands for (R71, R73): `op` alone selects it, and every word is a command. -/
def decode (w : CommandWord) : Instr :=
  if opField w = 0#3 then .nop (dlenField w) (dataField w)
  else if opField w = 1#3 then .loadkey (dlenField w) (dataField w)
  else if opField w = 2#3 then .enc (dlenField w) (dataField w)
  else if opField w = 3#3 then .dec (dlenField w) (dataField w)
  else if opField w = 4#3 then .clear (dlenField w) (dataField w)
  else if opField w = 5#3 then .reserved5 (dlenField w) (dataField w)
  else if opField w = 6#3 then .reserved6 (dlenField w) (dataField w)
  else .reserved7 (dlenField w) (dataField w)

/-- Why a number is no command word. -/
inductive DecodeReject where
  /-- It does not fit the one format of 75 bits (R70). -/
  | wordTooWide
deriving DecidableEq, Repr

/-- Decoding of any number, rejecting by name those that are no command word. -/
def decodeWord (w : Nat) : Except DecodeReject Instr :=
  if commandWordWf w then .ok (decode (BitVec.ofNat 75 w)) else .error .wordTooWide

/-- The opcode number (R73). -/
def Instr.op : Instr → BitVec 3
  | .nop _ _ => 0
  | .loadkey _ _ => 1
  | .enc _ _ => 2
  | .dec _ _ => 3
  | .clear _ _ => 4
  | .reserved5 _ _ => 5
  | .reserved6 _ _ => 6
  | .reserved7 _ _ => 7

/-- The declared length the command carries (R72). -/
def Instr.dlen : Instr → BitVec 8
  | .nop n _ => n
  | .loadkey n _ => n
  | .enc n _ => n
  | .dec n _ => n
  | .clear n _ => n
  | .reserved5 n _ => n
  | .reserved6 n _ => n
  | .reserved7 n _ => n

/-- The operand field the command carries (R74). -/
def Instr.data : Instr → Word64
  | .nop _ x => x
  | .loadkey _ x => x
  | .enc _ x => x
  | .dec _ x => x
  | .clear _ x => x
  | .reserved5 _ x => x
  | .reserved6 _ x => x
  | .reserved7 _ x => x

/-- The command word of a command: `op`, `dlen`, `data` from the top down (R70). -/
def encode (i : Instr) : CommandWord := i.op ++ i.dlen ++ i.data

/-- The rows of spec/opcode_table.json: mnemonic, mask, match (R73). -/
def opcodeRows : List (String × Nat × Nat) :=
  [("NOP", 0x7000000000000000000, 0x0000000000000000000),
   ("LOADKEY", 0x7000000000000000000, 0x1000000000000000000),
   ("ENC", 0x7000000000000000000, 0x2000000000000000000),
   ("DEC", 0x7000000000000000000, 0x3000000000000000000)] ++
  [("CLEAR", 0x7000000000000000000, 0x4000000000000000000),
   ("RESERVED5", 0x7000000000000000000, 0x5000000000000000000),
   ("RESERVED6", 0x7000000000000000000, 0x6000000000000000000),
   ("RESERVED7", 0x7000000000000000000, 0x7000000000000000000)]

/-- The command's mnemonic, as the opcode table spells it. -/
def Instr.mnemonic : Instr → String
  | .nop _ _ => "NOP"
  | .loadkey _ _ => "LOADKEY"
  | .enc _ _ => "ENC"
  | .dec _ _ => "DEC"
  | .clear _ _ => "CLEAR"
  | .reserved5 _ _ => "RESERVED5"
  | .reserved6 _ _ => "RESERVED6"
  | .reserved7 _ _ => "RESERVED7"

/-- The instruction the decoder reads from a word whose bits are numbered as the opcode table numbers them.
The command port carries one whole 75-bit word and has no bytes or addresses (R50, R70), so the word is laid
out as itself. Log entry 7. -/
def decodeTableWord (nbits w : Nat) : Option Instr :=
  if w < 2 ^ nbits then
    match decodeWord w with
    | .ok i => some i
    | .error _ => none
  else none

/-- The response word: `status` in `resp[67:65]`, `has_data` in `resp[64]`, `data` in `resp[63:0]` (R70). -/
def encodeResponse (r : Machine.Response) : ResponseWord :=
  BitVec.ofNat 3 r.status.code ++ BitVec.ofBool r.hasData ++ r.data

/-- The response a host reads from a response word (R70, R76). -/
def decodeResponse (w : ResponseWord) : Machine.Response :=
  { status := Machine.statusOfCode (w.extractLsb' 65 3)
    hasData := w.getLsbD 64
    data := w.extractLsb' 0 64 }

end Sys2Proof
end

