-- ==== Sys2Proof/Machine/State.lean ====
section
/-! DEFINITION. The state of the block: the list of 10_state.md rule R20, one field each, with the host's
drives of the ports beside it (the model's own field), the reasons a step can stop, and the state after reset. -/

namespace Sys2Proof.Machine

/-- The sequencing state (R31). -/
inductive Phase where
  /-- No command in flight; a command may be accepted. -/
  | idle
  /-- A LOADKEY runs its key-schedule rounds. -/
  | ks
  /-- An ENC or DEC runs its rounds. -/
  | blk
  /-- The rounds are done; the final permutation is next. -/
  | fin
deriving DecidableEq, Repr

/-- The direction of the block in flight (R29): 0 encrypt, 1 decrypt. -/
inductive Dir where
  | encrypt
  | decrypt
deriving DecidableEq, Repr

/-- What the host drives on the input ports (R228). The head of `State.host` is what it drives now. -/
inductive Drive where
  /-- Nothing for one micro-step: `cmd_valid = 0`, `rst = 0`. -/
  | idle
  /-- `cmd_valid = 1` with this word, held stable until it is accepted (R83, R222). -/
  | offer (w : CommandWord)
  /-- `cmd_valid = 1` with this word for one micro-step only: where it is not accepted in it, the host changes or
  withdraws the word (R222). -/
  | offerOnce (w : CommandWord)
  /-- `rst = 1` for one micro-step's time (R215). -/
  | rst
deriving DecidableEq, Repr

/-- The registers that can be unspecified (R37, R38). -/
inductive RegName where
  | key | c | d | l | r | dir
  | rk (i : Fin 16)
deriving DecidableEq, Repr

/-- Why the model stops. Neither is an error of the block: those are responses (R211 a). -/
inductive Fault where
  /-- A register that holds no value is read (R38). Raised by `withReg`, in the key-schedule, round and final
  micro-steps. Safe: the model stops, and no reachable state does this (R36 h). -/
  | unspecifiedRead (r : RegName)
  /-- Phase KS or BLK with `RND` above 15, which no reachable state has (R36 c, d). Raised by `ksRound` and
  `feistelRound`. Safe: the model stops where the spec has no round to run. -/
  | roundOutOfRange
deriving DecidableEq, Repr

/-- What the model refuses: nothing (R211 c). -/
inductive Refusal where
  /-- An instruction without a meaning. Raised by no arm of `exec`. Safe. -/
  | notModelled (mnemonic : String)
deriving DecidableEq, Repr

/-- The complete state (R20). A register that R37 and R162 leave `unspecified` holds no value, which is the
spec's own state `none` of R38 (log entry 1). -/
structure State where
  /-- `KEY`, the master key of the cipher instance (R23). -/
  key : Option Word64
  /-- `C`, left key half (R24). -/
  c : Option Word28
  /-- `D`, right key half (R24). -/
  d : Option Word28
  /-- `RK[0..15]`, the round keys in generation order (R25). -/
  rk : Vector (Option Word48) 16
  /-- `KVALID`, all sixteen round keys are made (R26). -/
  kvalid : Bool
  /-- `L`, left data half (R27). -/
  l : Option Word32
  /-- `R`, right data half (R27). -/
  r : Option Word32
  /-- `RND`, rounds done in the current phase (R28). -/
  rnd : BitVec 5
  /-- `DIR`, direction of the block in flight (R29). -/
  dir : Option Dir
  /-- `PHASE` (R31). -/
  phase : Phase
  /-- `ELOG`, sticky error log (R32). -/
  elog : BitVec 8
  /-- `RESP`, every response since reset, oldest first (R34). -/
  resp : List Response
  /-- The model's own field: what the host drives on the ports, the present drive first (R228; log entry 2). -/
  host : List Drive
deriving DecidableEq, Repr

/-- The 2-bit code of `PHASE` (R31); nothing can observe it. -/
def Phase.code : Phase → BitVec 2
  | .idle => 0
  | .ks => 1
  | .blk => 2
  | .fin => 3

/-- The bit of `DIR` (R29). -/
def Dir.bit : Dir → BitVec 1
  | .encrypt => 0
  | .decrypt => 1

/-- The state after reset (R37, R215); the host drives nothing yet. -/
def State.reset : State :=
  { key := none
    c := none
    d := none
    rk := Vector.replicate 16 none
    kvalid := false
    l := none
    r := none
    rnd := 0
    dir := none
    phase := .idle
    elog := 0
    resp := []
    host := [] }

end Sys2Proof.Machine
end

