-- ==== Sys2Proof/Machine/Flags.lean ====
section
/-! DEFINITION. The flags of the block: the sticky error log and the status view (10_state.md rules R30, R32,
R33). There are no arithmetic flags (R30). -/

namespace Sys2Proof.Machine

/-- `ELOG[c] <- 1` for the error's code c; no other bit changes (R10, R32, R198). -/
def logError (elog : BitVec 8) (e : ErrorName) : BitVec 8 := elog ||| (1#8 <<< e.code)

/-- Whether the host asserts `rst` now (R215). -/
def rstAsserted (s : State) : Bool :=
  match s.host with
  | .rst :: _ => true
  | _ => false

/-- The read-only status view (R33). -/
structure StatusView where
  busy : Bool
  cmdReady : Bool
  kvalid : Bool
  elog : BitVec 8
deriving DecidableEq, Repr

/-- The status view, a pure function of the state (R33): `busy` is `PHASE != IDLE`, and `cmd_ready` is
`PHASE = IDLE`, but 0 while `rst` is asserted (R215; log entry 4). -/
def statusView (s : State) : StatusView :=
  { busy := s.phase != .idle
    cmdReady := !rstAsserted s && s.phase == .idle
    kvalid := s.kvalid
    elog := s.elog }

/-- The `cmd_ready` the core drives on the command port: the status view's, one signal (R83). -/
def cmdReadyPin (s : State) : Bool := (statusView s).cmdReady

end Sys2Proof.Machine
end

