-- ==== Sys2Proof/Machine/Operands.lean ====
section
/-! DEFINITION. Operands and the primitives over them: DES positions, `Permute`, `rotl28`, `Sbox`, `SboxStage`
(00_scope.md rules R5 to R9), the halves of a value (30_encoding.md R75), and the cipher function f
(42_round_engine.md R135). -/

namespace Sys2Proof.Machine

/-- `X<k>`, DES position k counted from 1 at the most significant end: `X<k> = X[W-k]` (00_scope.md 6.1). -/
def pos {w : Nat} (x : BitVec w) (k : Nat) : Bool := x.getMsbD (k - 1)

/-- `Permute(T, X)`: output position i is input position `RomRead(T, i)` (R5). -/
def permute {lin lout : Nat} (T : PermTable lin lout) (x : BitVec lin) : BitVec lout :=
  (BitVec.ofBoolListBE (T.entries.toList.map (pos x))).cast (by simp)

/-- `rotl28(X, n)`: the n leftmost bits leave at the left and re-enter at the right, in order (R6). -/
def rotl28 (x : Word28) (n : Nat) : Word28 := x.rotateLeft n

/-- The row of a 6-bit group: its outer bits, the first one high (R8). -/
def sboxRow (g : BitVec 6) : Fin 4 := (BitVec.ofBool (pos g 1) ++ BitVec.ofBool (pos g 6) : BitVec 2).toFin

/-- The column of a 6-bit group: its inner four bits, the first one high (R8). -/
def sboxCol (g : BitVec 6) : Fin 16 := (g.extractLsb' 1 4).toFin

/-- `Sbox(j, g)`, box j from 1 being index j - 1 (R8). -/
def sbox (j : Fin 8) (g : BitVec 6) : BitVec 4 := romReadSbox j (sboxRow g) (sboxCol g)

/-- `g_j = X<6j-5 .. 6j>`, the j-th of eight 6-bit groups from the left, j from 1 being index j - 1 (R9). -/
def sboxGroup (x : Word48) (j : Fin 8) : BitVec 6 := x.extractLsb' (42 - 6 * j.val) 6

/-- `s_j`, group j looked up in box j (R9). -/
def sboxOut (x : Word48) (j : Fin 8) : BitVec 4 := sbox j (sboxGroup x j)

/-- `SboxStage(X)`: the eight outputs side by side, box 1 at the left (R9). -/
def sboxStage (x : Word48) : Word32 :=
  sboxOut x 0 ++ sboxOut x 1 ++ sboxOut x 2 ++ sboxOut x 3 ++ sboxOut x 4 ++ sboxOut x 5 ++ sboxOut x 6 ++
    sboxOut x 7

/-- The cipher function `f(R, K) = Permute(P, SboxStage(Permute(E, R) xor K))` (R135 to R139). -/
def feistelF (r : Word32) (k : Word48) : Word32 := permute Rom.p (sboxStage (permute Rom.e r ^^^ k))

/-- `Y<1..28>` of a 56-bit value (R75 a). -/
def leftKeyHalf (y : BitVec 56) : Word28 := y.extractLsb' 28 28

/-- `Y<29..56>` of a 56-bit value (R75 a). -/
def rightKeyHalf (y : BitVec 56) : Word28 := y.extractLsb' 0 28

/-- `Y<1..32>` of a 64-bit value (R75 b). -/
def leftHalf (y : Word64) : Word32 := y.extractLsb' 32 32

/-- `Y<33..64>` of a 64-bit value (R75 b). -/
def rightHalf (y : Word64) : Word32 := y.extractLsb' 0 32

/-- `C ‖ D`, the input of PC2 (R75 c). -/
def joinKey (c d : Word28) : BitVec 56 := c ++ d

/-- `L ‖ R`, the input of FP (R75 c). -/
def joinBlock (l r : Word32) : Word64 := l ++ r

/-- The one declared length an operand may have (R58, R72). -/
def operandOk (dlen : BitVec 8) : Bool := dlen == 64#8

end Sys2Proof.Machine
end

