-- ==== Sys2Proof/Machine/Ops.lean ====
section
/-! DEFINITION. The named operations every meaning is made of: reading a register that may be unspecified,
`respond`, and `raise`, which is this block's whole taking of an exception (00_scope.md R10, 30_encoding.md R78,
60_exceptions.md R202). There is no return from one: after an error the block is in IDLE (R203). -/

namespace Sys2Proof.Machine

/-- The result of a micro-step. -/
abbrev StepResult := Host.Outcome State Fault Refusal

/-- Read a register: go on with its value, or stop where it is unspecified, which R38 and R53 make a fault of the
model (10_state.md, 20_memory.md; 93_implementation_defined.md U6). -/
def withReg {α : Type} (name : RegName) (v : Option α) (go : α → StepResult) : StepResult :=
  match v with
  | some x => go x
  | none => .fault (.unspecifiedRead name)

/-- `respond(status, d)`: append one response (R34, R78). -/
def respond (s : State) (status : Status) (d : Option Word64) : State :=
  { s with resp := s.resp ++ [mkResponse status d] }

/-- `raise e`: log the error, answer it, change nothing else (R10, R192). -/
def raise (e : ErrorName) (s : State) : StepResult :=
  .next (respond { s with elog := logError s.elog e } (.error e) none)

/-- Read `RK[i]`, one whole entry (R53). -/
def readRk (s : State) (i : Fin 16) (go : Word48 → StepResult) : StepResult := withReg (.rk i) s.rk[i] go

/-- `RK[i] <- v`, one whole entry (R53). -/
def writeRk (s : State) (i : Fin 16) (v : Word48) : State := { s with rk := s.rk.set i (some v) }

/-- Every data register and `DIR` become unspecified (R38, R162). -/
def forgetData (s : State) : State :=
  { s with
    key := none
    c := none
    d := none
    rk := Vector.replicate 16 none
    l := none
    r := none
    dir := none }

end Sys2Proof.Machine
end

