-- ==== Sys2Proof/Machine/Control.lean ====
section
/-! DEFINITION. The control commands (43_control_commands.md): NOP (R160), CLEAR (R162) and the reserved
opcodes (R164). None looks at `dlen` or `data` (R82), so their meanings do not take them. -/

namespace Sys2Proof.Machine

/-- NOP: `respond(OK, none)` (R160). -/
def execNop (s : State) : StepResult := .next (respond s .ok none)

/-- CLEAR: discard the cipher instance; `RESP` is not emptied (R162). -/
def execClear (s : State) : StepResult :=
  .next (respond { forgetData s with kvalid := false, elog := 0, rnd := 0, phase := .idle } .ok none)

/-- Opcode 5: `raise IllegalCommand` (R164). -/
def execReserved5 (s : State) : StepResult := raise .illegalCommand s

/-- Opcode 6: `raise IllegalCommand` (R164). -/
def execReserved6 (s : State) : StepResult := raise .illegalCommand s

/-- Opcode 7: `raise IllegalCommand` (R164). -/
def execReserved7 (s : State) : StepResult := raise .illegalCommand s

end Sys2Proof.Machine
end

