-- ==== Sys2Proof/Machine/KeyScheduler.lean ====
section
/-! DEFINITION. The key scheduler (41_key_scheduler.md): LOADKEY's accept micro-step (R110, R111), the
key-schedule round micro-step (R113), and the schedule as a function (R118). -/

namespace Sys2Proof.Machine

/-- The accept micro-step of a LOADKEY that is not refused (R111, R112). -/
def startKeySchedule (data : Word64) (s : State) : State :=
  let y := permute Rom.pc1 data
  { s with
    key := some data
    c := some (leftKeyHalf y)
    d := some (rightKeyHalf y)
    rnd := 0
    phase := .ks }

/-- LOADKEY's accept micro-step: the length error before the lifecycle error (R80, R110, R193, R196, R201). -/
def execLoadkey (dlen : BitVec 8) (data : Word64) (s : State) : StepResult :=
  if !operandOk dlen then raise .invalidKeyLength s
  else if s.kvalid then raise .keyLocked s
  else .next (startKeySchedule data s)

/-- What key-schedule round n = i + 1 leaves, given the halves before it: both halves rotated, `RK[i]` compressed
from the rotated halves, `RND <- n`; in round 16 also `KVALID <- 1`, `PHASE <- IDLE` and the response (R113,
R115). -/
def ksRoundState (s : State) (i : Fin 16) (c d : Word28) : State :=
  let sh := romReadShift (i.val + 1)
  let c' := rotl28 c sh
  let d' := rotl28 d sh
  let t := writeRk { s with c := some c', d := some d', rnd := s.rnd + 1 } i (permute Rom.pc2 (joinKey c' d'))
  if i.val = 15 then respond { t with kvalid := true, phase := .idle } .ok none else t

/-- The key-schedule round micro-step, n = RND + 1 (R113). -/
def ksRound (s : State) : StepResult :=
  if h : s.rnd.toNat < 16 then
    withReg .c s.c fun c => withReg .d s.d fun d => .next (ksRoundState s ⟨s.rnd.toNat, h⟩ c d)
  else .fault .roundOutOfRange

/-- `(Cn, Dn)`: the halves after n key-schedule rounds from the halves after PC1 (R118). -/
def keyHalves (key : Word64) : Nat → Word28 × Word28
  | 0 => (leftKeyHalf (permute Rom.pc1 key), rightKeyHalf (permute Rom.pc1 key))
  | n + 1 =>
    (rotl28 (keyHalves key n).1 (romReadShift (n + 1)), rotl28 (keyHalves key n).2 (romReadShift (n + 1)))

/-- `Kn`, the round key of key-schedule round n (R118). -/
def roundKey (key : Word64) (n : Nat) : Word48 := permute Rom.pc2 (joinKey (keyHalves key n).1 (keyHalves key n).2)

/-- `KeySchedule(key) = [K1, ..., K16]` (R118). -/
def keySchedule (key : Word64) : Vector Word48 16 := Vector.ofFn fun i => roundKey key (i.val + 1)

end Sys2Proof.Machine
end

