-- ==== Sys2Proof/Machine/RoundEngine.lean ====
section
/-! DEFINITION. The Feistel round engine (42_round_engine.md): the accept micro-steps of ENC and DEC (R131,
R132), the round micro-step (R134), the final micro-step (R146), and the engine as a function (R144). -/

namespace Sys2Proof.Machine

/-- The accept micro-step of an ENC or DEC that is not refused (R131, R132). -/
def startBlock (dir : Dir) (data : Word64) (s : State) : State :=
  let y := permute Rom.ip data
  { s with
    l := some (leftHalf y)
    r := some (rightHalf y)
    dir := some dir
    rnd := 0
    phase := .blk }

/-- The shared checks of ENC and DEC: the length error before the lifecycle error (R80, R194, R195, R201). -/
def acceptBlock (dir : Dir) (dlen : BitVec 8) (data : Word64) (s : State) : StepResult :=
  if !operandOk dlen then raise .lengthMismatch s
  else if !s.kvalid then raise .keyNotReady s
  else .next (startBlock dir data s)

/-- ENC's accept micro-step (R130, R131). -/
def execEnc (dlen : BitVec 8) (data : Word64) (s : State) : StepResult := acceptBlock .encrypt dlen data s

/-- DEC's accept micro-step (R132, R133). -/
def execDec (dlen : BitVec 8) (data : Word64) (s : State) : StepResult := acceptBlock .decrypt dlen data s

/-- The round-key index of round i: i for ENC, 15 - i for DEC (R142). -/
def roundKeyIndex (dir : Dir) (i : Fin 16) : Fin 16 :=
  match dir with
  | .encrypt => i
  | .decrypt => ⟨15 - i.val, by omega⟩

/-- What Feistel round i leaves, given the halves before it and its round key: a swap in rounds 0 to 14, none in
round 15; `RND <- i + 1`, and `PHASE <- FIN` after round 15 (R134, R140, R141). -/
def feistelRoundState (s : State) (i : Fin 16) (l r : Word32) (k : Word48) : State :=
  let t := feistelF r k ^^^ l
  if i.val < 15 then { s with l := some r, r := some t, rnd := s.rnd + 1 }
  else { s with l := some t, rnd := s.rnd + 1, phase := .fin }

/-- The Feistel round micro-step, i = RND (R134). -/
def feistelRound (s : State) : StepResult :=
  if h : s.rnd.toNat < 16 then
    withReg .l s.l fun l => withReg .r s.r fun r => withReg .dir s.dir fun dir =>
      readRk s (roundKeyIndex dir ⟨s.rnd.toNat, h⟩) fun k => .next (feistelRoundState s ⟨s.rnd.toNat, h⟩ l r k)
  else .fault .roundOutOfRange

/-- The final micro-step: answer `Permute(FP, L ‖ R)` and return to IDLE (R146). -/
def finalStep (s : State) : StepResult :=
  withReg .l s.l fun l => withReg .r s.r fun r =>
    .next (respond { s with phase := .idle } .ok (some (permute Rom.fp (joinBlock l r))))

/-- One round of `Crypt` with a swap: `(L, R) := (R, L xor f(R, k))` (R144). -/
def cryptRound (h : Word32 × Word32) (k : Word48) : Word32 × Word32 := (h.2, h.1 ^^^ feistelF h.2 k)

/-- The halves after the rounds with the keys `ks`, each with a swap (R144). -/
def cryptRounds (ks : List Word48) (h : Word32 × Word32) : Word32 × Word32 := ks.foldl cryptRound h

/-- `Crypt(ks, X)`, the function ENC and DEC compute: fifteen rounds with a swap, the last without (R144). -/
def crypt (ks : Vector Word48 16) (x : Word64) : Word64 :=
  let y := permute Rom.ip x
  let h := cryptRounds (ks.toList.take 15) (leftHalf y, rightHalf y)
  permute Rom.fp (joinBlock (h.1 ^^^ feistelF h.2 ks[15]) h.2)

/-- The round keys in the order a direction uses them (R142, R144). -/
def keysFor (dir : Dir) (ks : Vector Word48 16) : Vector Word48 16 :=
  match dir with
  | .encrypt => ks
  | .decrypt => ks.reverse

end Sys2Proof.Machine
end

