-- ==== Sys2Proof/Machine/Dispatch.lean ====
section
/-! DEFINITION. The accept micro-step of a decoded command (30_encoding.md R80), one arm per command. It is run
in phase IDLE only: Machine/Port.lean decides that (R83, R222). -/

namespace Sys2Proof.Machine

def exec (i : Instr) (s : State) : Host.Outcome State Fault Refusal :=
  match i with
  | .nop _ _ => Sys2Proof.Machine.execNop s
  | .loadkey dlen data => Sys2Proof.Machine.execLoadkey dlen data s
  | .enc dlen data => Sys2Proof.Machine.execEnc dlen data s
  | .dec dlen data => Sys2Proof.Machine.execDec dlen data s
  | .clear _ _ => Sys2Proof.Machine.execClear s
  | .reserved5 _ _ => Sys2Proof.Machine.execReserved5 s
  | .reserved6 _ _ => Sys2Proof.Machine.execReserved6 s
  | .reserved7 _ _ => Sys2Proof.Machine.execReserved7 s

end Sys2Proof.Machine
end

