-- ==== Sys2Proof/Machine/Port.lean ====
section
/-! DEFINITION. The ports (30_encoding.md R83, 70_reset_and_hazards.md R215, R217, R222, R228) and the step
relation (10_state.md R40): reset, accepting an offered command, the core's own micro-steps, and waiting. -/

namespace Sys2Proof.Machine

/-- The command word on the port now: `cmd_valid = 1` and its word, or nothing (R83). -/
def offered (s : State) : Option CommandWord :=
  match s.host with
  | .offer w :: _ => some w
  | .offerOnce w :: _ => some w
  | _ => none

/-- The host moves on to its next drive. -/
def nextDrive (s : State) : State := { s with host := s.host.tail }

/-- What the host drives after a micro-step in which nothing was accepted: an offered word is held (R222), a
drive of one micro-step is over. -/
def afterNoAccept (s : State) : State :=
  match s.host with
  | .offer _ :: _ => s
  | _ => nextDrive s

/-- The core's own micro-step in a phase other than IDLE; in IDLE it has none (R40). -/
def coreMicroStep (s : State) : StepResult :=
  match s.phase with
  | .idle => .next s
  | .ks => ksRound s
  | .blk => feistelRound s
  | .fin => finalStep s

/-- The state `rst` leaves: the reset state, a command in flight abandoned without a response (R215, R217); the
host's further drives are not the block's to reset. -/
def resetBy (s : State) : State := { State.reset with host := s.host.tail }

/-- One micro-step: `rst` first; in IDLE accept the offered command or wait; else the core's own micro-step, which
does not look at the command port (R40, R83, R215, R222). -/
def microStep (s : State) : StepResult :=
  if rstAsserted s then .next (resetBy s)
  else
    match s.phase, offered s with
    | .idle, some w => exec (decode w) (nextDrive s)
    | .idle, none => .next (afterNoAccept s)
    | .ks, _ => coreMicroStep (afterNoAccept s)
    | .blk, _ => coreMicroStep (afterNoAccept s)
    | .fin, _ => coreMicroStep (afterNoAccept s)

/-- The host offers a command next, in front of everything else it will drive, to a block in phase IDLE. -/
def offerFirst (w : CommandWord) (s : State) : State := { s with phase := .idle, host := .offer w :: s.host }

end Sys2Proof.Machine
end

