-- ==== Sys2Proof/Machine/Step.lean ====
section
/-! DEFINITION. One step of the machine, and the host's way to place a command before it. -/

namespace Sys2Proof.Machine

/-- One micro-step of the block (10_state.md R40). -/
def step (s : State) : Host.Outcome State Fault Refusal := microStep s

/-- `s` with a command word offered on the port of the idle block, so that the very next step accepts it. A
number wider than the format is no command word (R70) and is cut to it. Log entry 8. -/
def State.withFetchWord (s : State) (nbits w : Nat) : State := offerFirst (BitVec.ofNat 75 (w % 2 ^ nbits)) s

end Sys2Proof.Machine
end

