-- ==== Sys2Proof/Machine/Codec.lean ====
section
/-! DEFINITION. The host's Bit/Hex codec (44_host_facade.md rules R171 to R175, R181), outside the block.
A bit string is a list of bits, first to last; a hex string or a text is a list of characters. -/

namespace Sys2Proof.Machine

/-- The value of a hex digit, upper or lower case (R171). -/
def hexValue (ch : Char) : Option (BitVec 4) :=
  if 48 ≤ ch.toNat ∧ ch.toNat ≤ 57 then some (BitVec.ofNat 4 (ch.toNat - 48))
  else if 65 ≤ ch.toNat ∧ ch.toNat ≤ 70 then some (BitVec.ofNat 4 (ch.toNat - 55))
  else if 97 ≤ ch.toNat ∧ ch.toNat ≤ 102 then some (BitVec.ofNat 4 (ch.toNat - 87))
  else none

/-- The hex digit of a value, upper case (R172). -/
def hexDigit (v : BitVec 4) : Char := Char.ofNat (if v.toNat < 10 then v.toNat + 48 else v.toNat + 55)

/-- A digit's four bits, most significant first (R56). -/
def nibbleBits (v : BitVec 4) : List Bool := [v.getMsbD 0, v.getMsbD 1, v.getMsbD 2, v.getMsbD 3]

/-- `hexToBinary` (R171). -/
def hexToBinary : List Char → Except ErrorName (List Bool)
  | [] => .ok []
  | ch :: rest =>
    match hexValue ch with
    | none => .error .invalidEncoding
    | some v =>
      match hexToBinary rest with
      | .ok bits => .ok (nibbleBits v ++ bits)
      | .error e => .error e

/-- The hex digits of a bit string in chunks of four (R172). -/
def hexOfChunks : List Bool → List Char
  | b0 :: b1 :: b2 :: b3 :: rest => hexDigit (BitVec.ofBoolListBE [b0, b1, b2, b3]) :: hexOfChunks rest
  | _ => []

/-- `binaryToHex` (R172); a length that is no multiple of 4 is left open by the spec (log entry 12). -/
def binaryToHex (bits : List Bool) : List Char :=
  if bits.length % 4 = 0 then hexOfChunks bits else Config.binaryToHexRagged bits

/-- The UTF-8 bytes of one character (R173; log entry 13). -/
def utf8EncodeChar (ch : Char) : List Byte :=
  let n := ch.toNat
  if n < 0x80 then [BitVec.ofNat 8 n]
  else if n < 0x800 then [BitVec.ofNat 8 (0xC0 + n / 64), BitVec.ofNat 8 (0x80 + n % 64)]
  else if n < 0x10000 then
    [BitVec.ofNat 8 (0xE0 + n / 4096), BitVec.ofNat 8 (0x80 + n / 64 % 64), BitVec.ofNat 8 (0x80 + n % 64)]
  else
    [BitVec.ofNat 8 (0xF0 + n / 262144), BitVec.ofNat 8 (0x80 + n / 4096 % 64),
      BitVec.ofNat 8 (0x80 + n / 64 % 64), BitVec.ofNat 8 (0x80 + n % 64)]

/-- The UTF-8 bytes of a text, in message order (R173). -/
def utf8Encode (text : List Char) : List Byte := text.flatMap utf8EncodeChar

/-- The number of bytes a first byte announces and the number they spell; 0 bytes where it announces none. -/
def utf8Candidate (bytes : List Byte) : Nat × Nat :=
  let at' := fun i => (bytes.getD i 0).toNat % 64
  let b0 := (bytes.getD 0 0).toNat
  if b0 < 0x80 then (1, b0)
  else if b0 < 0xC0 then (0, 0)
  else if b0 < 0xE0 then (2, b0 % 32 * 64 + at' 1)
  else if b0 < 0xF0 then (3, b0 % 16 * 4096 + at' 1 * 64 + at' 2)
  else (4, b0 % 8 * 262144 + at' 1 * 4096 + at' 2 * 64 + at' 3)

/-- The first character of a byte string and the rest of it: the bytes taken must be exactly the UTF-8 bytes of
the character they spell, which leaves out overlong forms, surrogates and stray bytes (log entry 13). -/
def utf8Next (bytes : List Byte) : Option (Char × List Byte) :=
  let (len, n) := utf8Candidate bytes
  if 0 < len ∧ utf8EncodeChar (Char.ofNat n) = bytes.take len then some (Char.ofNat n, bytes.drop len) else none

/-- UTF-8 decoding with a bound on the number of characters. -/
def utf8DecodeUpTo : Nat → List Byte → Option (List Char)
  | _, [] => some []
  | 0, _ :: _ => none
  | fuel + 1, bytes@(_ :: _) =>
    match utf8Next bytes with
    | none => none
    | some (ch, rest) => (utf8DecodeUpTo fuel rest).map (ch :: ·)

/-- The text a byte string spells, or nothing where it is not valid UTF-8 (R174). -/
def utf8Decode (bytes : List Byte) : Option (List Char) := utf8DecodeUpTo bytes.length bytes

/-- A byte as two upper-case hex digits (R173). -/
def hexOfByte (b : Byte) : List Char := [hexDigit (b.extractLsb' 4 4), hexDigit (b.extractLsb' 0 4)]

/-- `textToHex` (R173). -/
def textToHex (text : List Char) : List Char := (utf8Encode text).flatMap hexOfByte

/-- Hex pairs to bytes (R174). -/
def hexPairs : List Char → Except ErrorName (List Byte)
  | hi :: lo :: rest =>
    match hexValue hi, hexValue lo with
    | some a, some b =>
      match hexPairs rest with
      | .ok bytes => .ok ((a ++ b : BitVec 8) :: bytes)
      | .error e => .error e
    | _, _ => .error .invalidEncoding
  | _ => .ok []

/-- The bytes of a hex string. A character that is no hex digit is `InvalidEncoding` whatever the length (R190;
DEDUCED, log entry 12); an odd number of hex digits is left open by the spec, so its bytes are a free value (log
entry 12). -/
def hexToBytes (hex : List Char) : Except ErrorName (List Byte) :=
  if hex.length % 2 = 0 then hexPairs hex
  else
    match hexToBinary hex with
    | .error e => .error e
    | .ok _ => .ok (Config.hexToBytesOdd hex)

/-- Every trailing zero byte removed (R174, R182). -/
def stripNul (bytes : List Byte) : List Byte := (bytes.reverse.dropWhile (· == 0)).reverse

/-- `hexToText` (R174): pairs to bytes, trailing zero bytes stripped, interpreted as UTF-8. -/
def hexToText (hex : List Char) : Except ErrorName (List Char) :=
  match hexToBytes hex with
  | .error e => .error e
  | .ok bytes =>
    match utf8Decode (stripNul bytes) with
    | some text => .ok text
    | none => .error .decodeError

/-- A chunk padded on the right with `'0'` digits (R175). -/
def padChunk (n : Nat) (chunk : List Char) : List Char := chunk ++ List.replicate (n - chunk.length) '0'

/-- `splitIntoBlocks(hex, blockHexLen = 16)` (R175): chunk m is characters `16m` to `16m + 15`, the number of
blocks is `ceil(n / 16)`, and the last partial chunk is padded. The empty string has no block, 0 by R175's formula;
U11 and N12 call that case open (DEDUCED, log entry 18). A `blockHexLen` other than 16, which N12 (e) leaves open and
no operation here uses, chunks by that length in the same way; 0 gives a free value (DESIGN CHOICE, log entry 20). -/
def splitIntoBlocks (hex : List Char) (blockHexLen : Nat := 16) : List (List Char) :=
  if blockHexLen = 0 then Config.splitByZero hex
  else
    (List.range ((hex.length + blockHexLen - 1) / blockHexLen)).map fun m =>
      padChunk blockHexLen ((hex.drop (blockHexLen * m)).take blockHexLen)

/-- The caller's truncation of a bitmap's output hex to `width * height * 2` characters (R181). -/
def truncateBitmap (hex : List Char) (width height : Nat) : List Char := hex.take (width * height * 2)

/-- The bits of a 64-bit word, DES position 1 first (R55, R56). -/
def wordBits (x : Word64) : List Bool := (List.range 64).map fun k => x.getMsbD k

/-- The word a string of 64 bits spells, first bit at DES position 1 (R55, R56). -/
def bitsWord (bits : List Bool) : Word64 := (BitVec.ofBoolListBE bits).setWidth 64

/-- The length a host declares for n hex digits (R72). -/
def declaredLength (n : Nat) : BitVec 8 := if 4 * n ≤ 255 then BitVec.ofNat 8 (4 * n) else 255

/-- The `dlen` and `data` a host sends for an operand written in hex (R72, R84): `data` is the digits where there
are 16, else zero; a character that is no hex digit never reaches the block. -/
def operandFields (hex : List Char) : Except ErrorName (BitVec 8 × Word64) :=
  match hexToBinary hex with
  | .error e => .error e
  | .ok bits => .ok (declaredLength hex.length, if hex.length = 16 then bitsWord bits else 0)

end Sys2Proof.Machine
end

