-- ==== Sys2Proof/Machine/Assembler.lean ====
section
/-! DEFINITION. The assembler syntax and the pseudo-commands (30_encoding.md rules R84, R85): a writing
convention for command sequences, on the host's side. -/

namespace Sys2Proof.Machine

/-- Why a line is no command. -/
inductive AsmError where
  /-- A character of an operand is no hex digit: the host-side `InvalidEncoding` (R84). -/
  | invalidEncoding
  /-- The line is not a mnemonic with the operands it takes (R84). -/
  | notACommand
deriving DecidableEq, Repr

/-- Cut a line at every character that `p` picks. -/
def cutAt (p : Char → Bool) : List Char → List (List Char)
  | [] => [[]]
  | ch :: rest =>
    if p ch then [] :: cutAt p rest
    else
      match cutAt p rest with
      | [] => [[ch]]
      | word :: words => (ch :: word) :: words

/-- The words of a line: the comment from `;` on left out, cut at blanks (log entry 16). -/
def lineWords (line : List Char) : List (List Char) :=
  (cutAt (fun ch => ch == ' ' || ch == '\t' || ch == '\r') (line.takeWhile (· != ';'))).filter fun w => !w.isEmpty

/-- One command with a hex operand (R84). -/
def asmOperand (mk : BitVec 8 → Word64 → Instr) (hex : List Char) : Except AsmError Instr :=
  match operandFields hex with
  | .ok (n, x) => .ok (mk n x)
  | .error _ => .error .invalidEncoding

/-- One command per 16-digit chunk (R85). -/
def asmBlocks (mk : BitVec 8 → Word64 → Instr) : List (List Char) → Except AsmError (List Instr)
  | [] => .ok []
  | b :: bs =>
    match asmOperand mk b, asmBlocks mk bs with
    | .ok i, .ok is => .ok (i :: is)
    | .error e, _ => .error e
    | .ok _, .error e => .error e

/-- The commands of a mnemonic that takes an operand, with the operand's digits (R84, R85). The number of digits may
be any, 0 among them (DESIGN CHOICE, log entry 16): then `dlen = 0` by R72's formula, and ENCM and DECM give one
command per block that `splitIntoBlocks` gives, so none (log entry 18). -/
def asmWithOperand (m hex : List Char) : Except AsmError (List Instr) :=
  if m = ['L', 'O', 'A', 'D', 'K', 'E', 'Y'] then (asmOperand .loadkey hex).map fun i => [i]
  else if m = ['E', 'N', 'C'] then (asmOperand .enc hex).map fun i => [i]
  else if m = ['D', 'E', 'C'] then (asmOperand .dec hex).map fun i => [i]
  else if m = ['R', 'E', 'K', 'E', 'Y'] then (asmOperand .loadkey hex).map fun i => [.clear 0 0, i]
  else if m = ['E', 'N', 'C', 'M'] then asmBlocks .enc (splitIntoBlocks hex)
  else if m = ['D', 'E', 'C', 'M'] then asmBlocks .dec (splitIntoBlocks hex)
  else .error .notACommand

/-- The commands of one line: none for a blank line, one for a command, more for a pseudo-command (R84, R85). A
mnemonic that takes an operand and stands alone has the operand of no digits (DESIGN CHOICE, log entry 16). -/
def assembleLine (line : List Char) : Except AsmError (List Instr) :=
  match lineWords line with
  | [] => .ok []
  | [m] =>
    if m = ['N', 'O', 'P'] then .ok [.nop 0 0]
    else if m = ['C', 'L', 'E', 'A', 'R'] then .ok [.clear 0 0]
    else asmWithOperand m []
  | [m, hex] => asmWithOperand m hex
  | _ :: _ :: _ :: _ => .error .notACommand

/-- The commands of a program text, line by line. -/
def assembleLines : List (List Char) → Except AsmError (List Instr)
  | [] => .ok []
  | line :: lines =>
    match assembleLine line, assembleLines lines with
    | .ok is, .ok js => .ok (is ++ js)
    | .error e, _ => .error e
    | .ok _, .error e => .error e

/-- The commands of a program text (R84). -/
def assemble (text : List Char) : Except AsmError (List Instr) := assembleLines (cutAt (· == '\n') text)

end Sys2Proof.Machine
end

