-- ==== Sys2Proof/Machine/Run.lean ====
section
/-! DEFINITION. Runs (10_state.md R41): so many micro-steps, and the commands a host still has to offer. -/

namespace Sys2Proof.Machine

/-- `n` micro-steps, stopping at the first that is none. -/
def run : Nat → State → StepResult
  | 0, s => .next s
  | n + 1, s =>
    match step s with
    | .next t => run n t
    | .fault f => .fault f
    | .refused f => .refused f

/-- A run is over: every command offered was accepted and `PHASE = IDLE` (R41). -/
def runOver (s : State) : Bool := s.phase == .idle && s.host.isEmpty

/-- The host drives: offer these commands in order, each held until it is accepted (R41, R222). -/
def offerAll (is : List Instr) (s : State) : State := { s with host := is.map fun i => .offer (encode i) }

end Sys2Proof.Machine
end

