-- ==== Sys2Proof/Machine/Facade.lean ====
section
/-! DEFINITION. The host's facade (44_host_facade.md rules R176 to R180, R185), outside the block: it drives the
block through LOADKEY, ENC and DEC, one command at a time, each to its response (R186). Every operation answers
its result and the state the block is left in. -/

namespace Sys2Proof.Machine

/-- Why a host operation gives no result. -/
inductive HostStop where
  /-- An error of the codec, or a nonzero status of the block (R185). -/
  | error (e : ErrorName)
  /-- The block gave no response to the command, or a response without the result; R79 and R77 exclude it. -/
  | noResult
  /-- The machine stopped with a fault of the model; R36 h excludes it. -/
  | fault (f : Fault)
  /-- The machine refused; R211 c excludes it. -/
  | refused (r : Refusal)
deriving DecidableEq, Repr

/-- What a host operation answers, and the block's state after it. -/
abbrev HostResult (α : Type) := Except HostStop α × State

/-- The most micro-steps a command takes: accept, sixteen rounds, final (R211 d, R227). -/
def commandSteps : Nat := 18

/-- Offer one command to the block, let it run, and take its response: the one after those already there, matched
by counting (R79, R83, R225). -/
def issue (i : Instr) (s : State) : HostResult Response :=
  match run commandSteps (offerAll [i] s) with
  | .next t =>
    match t.resp[s.resp.length]? with
    | some r => (.ok r, t)
    | none => (.error .noResult, t)
  | .fault f => (.error (.fault f), s)
  | .refused f => (.error (.refused f), s)

/-- A command whose success carries no data: LOADKEY, CLEAR (R77). -/
def issueControl (i : Instr) (s : State) : HostResult Unit :=
  match issue i s with
  | (.ok r, t) =>
    match r.status with
    | .ok => (.ok (), t)
    | .error e => (.error (.error e), t)
  | (.error e, t) => (.error e, t)

/-- Construct a cipher instance from a key in hex (R176). -/
def newInstance (hexKey : List Char) (s : State) : HostResult Unit :=
  match operandFields hexKey with
  | .error e => (.error (.error e), s)
  | .ok (n, x) => issueControl (.loadkey n x) s

/-- `REKEY`: discard the instance and construct a new one (R85, R121, R163). The hex of the key is checked before
CLEAR is issued, as in the assembler: with a character that is no hex digit the block is sent nothing and keeps its
instance (DESIGN CHOICE, log entry 21). -/
def rekey (hexKey : List Char) (s : State) : HostResult Unit :=
  match operandFields hexKey with
  | .error e => (.error (.error e), s)
  | .ok _ =>
    match issueControl (.clear 0 0) s with
    | (.ok _, t) => newInstance hexKey t
    | (.error e, t) => (.error e, t)

/-- One block through the block (R177): `hexToBinary`, one command, `binaryToHex` of the response data. -/
def blockOp (mk : BitVec 8 → Word64 → Instr) (hex64 : List Char) (s : State) : HostResult (List Char) :=
  match operandFields hex64 with
  | .error e => (.error (.error e), s)
  | .ok (n, x) =>
    match issue (mk n x) s with
    | (.error e, t) => (.error e, t)
    | (.ok r, t) =>
      match r.status with
      | .error e => (.error (.error e), t)
      | .ok => if r.hasData then (.ok (binaryToHex (wordBits r.data)), t) else (.error .noResult, t)

/-- `encryptBlock(hex64) -> hex64` (R177). -/
def encryptBlock (hex64 : List Char) (s : State) : HostResult (List Char) := blockOp .enc hex64 s

/-- `decryptBlock(hex64) -> hex64` (R177). -/
def decryptBlock (hex64 : List Char) (s : State) : HostResult (List Char) := blockOp .dec hex64 s

/-- The blocks of a message in order, results concatenated; the first error abandons the message and its earlier
results (R178, R185, R186). -/
def blocksOp (mk : BitVec 8 → Word64 → Instr) : List (List Char) → State → HostResult (List Char)
  | [], s => (.ok [], s)
  | b :: bs, s =>
    match blockOp mk b s with
    | (.error e, t) => (.error e, t)
    | (.ok h, t) =>
      match blocksOp mk bs t with
      | (.error e, u) => (.error e, u)
      | (.ok hs, u) => (.ok (h ++ hs), u)

/-- `encryptRawHex(hex) -> hex` (R180). -/
def encryptRawHex (hex : List Char) (s : State) : HostResult (List Char) := blocksOp .enc (splitIntoBlocks hex) s

/-- `decryptRawHex(hex) -> hex` (R180). -/
def decryptRawHex (hex : List Char) (s : State) : HostResult (List Char) := blocksOp .dec (splitIntoBlocks hex) s

/-- `encryptText(text) -> hexCiphertext` (R178). -/
def encryptText (text : List Char) (s : State) : HostResult (List Char) := encryptRawHex (textToHex text) s

/-- `decryptText(hexCiphertext) -> text` (R179). -/
def decryptText (hex : List Char) (s : State) : HostResult (List Char) :=
  match decryptRawHex hex s with
  | (.error e, t) => (.error e, t)
  | (.ok h, t) =>
    match hexToText h with
    | .ok text => (.ok text, t)
    | .error e => (.error (.error e), t)

end Sys2Proof.Machine
end

