-- ==== Sys2Proof/Safety.lean ====
section
/-! DEFINITION. What a safe state and a safe run are, in the terms the claims use: the invariants of 10_state.md
R36, the start states of 70_reset_and_hazards.md R219, and the counts of R36 f and R211 d. -/

namespace Sys2Proof.Machine

/-- The state a command refused with `e` leaves: one log bit, one response, nothing else (R10, R192). -/
def refusedState (e : ErrorName) (s : State) : State :=
  { s with
    elog := s.elog ||| (1#8 <<< e.code)
    resp := s.resp ++ [{ status := .error e, hasData := false, data := 0 }] }

/-- The response of a command that is done and has no result (R77). -/
def doneResponse : Response := { status := .ok, hasData := false, data := 0 }

/-- The invariants of R36, as one property of a state. It says of each reachable state what R36 says, and of the
key halves in flight what makes that inductive. -/
structure State.Inv (s : State) : Prop where
  /-- R36 a: with `KVALID = 1` the key registers hold values, `RK` is the key schedule of `KEY`, and `C`, `D` are
  the halves of just after PC1 (R117). -/
  keyed : s.kvalid = true → ∃ k, s.key = some k ∧ s.c = some (keyHalves k 0).1 ∧ s.d = some (keyHalves k 0).2 ∧
    s.rk = (keySchedule k).map some
  /-- R36 b and c: in phase KS there is no key yet, `RND` is in 0..15, `C` and `D` are the halves after `RND`
  rounds, and the round keys made so far are those of the schedule. -/
  inKs : s.phase = .ks → s.kvalid = false ∧ s.rnd.toNat < 16 ∧ ∃ k, s.key = some k ∧
    s.c = some (keyHalves k s.rnd.toNat).1 ∧ s.d = some (keyHalves k s.rnd.toNat).2 ∧
    ∀ i : Fin 16, i.val < s.rnd.toNat → s.rk[i] = some (keySchedule k)[i]
  /-- R36 d, phase BLK. -/
  inBlk : s.phase = .blk → s.kvalid = true ∧ s.rnd.toNat < 16 ∧ s.l.isSome = true ∧ s.r.isSome = true ∧
    s.dir.isSome = true
  /-- R36 d, phase FIN. -/
  inFin : s.phase = .fin → s.kvalid = true ∧ s.rnd.toNat = 16 ∧ s.l.isSome = true ∧ s.r.isSome = true
  /-- R36 e. -/
  rndBound : s.rnd.toNat ≤ 16
  /-- R36 g: bits 0, 1 and 4 of the log are zero. -/
  elogZero : s.elog.getLsbD 0 = false ∧ s.elog.getLsbD 1 = false ∧ s.elog.getLsbD 4 = false
  /-- R36 g: a log bit that is set stands for a response in `RESP`. -/
  elogCause : ∀ b, s.elog.getLsbD b = true → ∃ r ∈ s.resp, r.status.code = b
  /-- R77: every response has one of the five shapes. -/
  respShapes : ∀ r ∈ s.resp, r.wf = true

/-- The start state `CleanReset` (R219), with what the host will drive. -/
def cleanReset (host : List Drive) : State := { State.reset with host := host }

/-- The start states `Keyed(k)` (R219). -/
structure Keyed (k : Word64) (s : State) : Prop where
  idle : s.phase = .idle
  valid : s.kvalid = true
  log : s.elog = 0
  keys : s.rk = (keySchedule k).map some

/-- The block is idle and holds these sixteen round keys: all that an ENC or DEC reads (R144). -/
structure Ready (ks : Vector Word48 16) (s : State) : Prop where
  idle : s.phase = .idle
  valid : s.kvalid = true
  keys : s.rk = ks.map some

/-- The next step accepts a command (R40, R83). -/
def accepts (s : State) : Bool := !rstAsserted s && s.phase == .idle && (offered s).isSome

/-- The next step accepts a CLEAR. -/
def acceptsClear (s : State) : Bool := accepts s && ((offered s).map opField == some 4#3)

/-- The next step discards the cipher instance: `rst`, or an accepted CLEAR (R121). -/
def discards (s : State) : Bool := rstAsserted s || acceptsClear s

/-- The commands in flight: one outside IDLE, none in it (R36 f). -/
def inFlight (s : State) : Nat := if s.phase = .idle then 0 else 1

/-- The commands accepted in `n` steps from `s`. -/
def acceptedIn : Nat → State → Nat
  | 0, _ => 0
  | n + 1, s =>
    (if accepts s then 1 else 0) +
      match step s with
      | .next t => acceptedIn n t
      | .fault _ => 0
      | .refused _ => 0

/-- The host never asserts `rst`. -/
def noRst (s : State) : Prop := Drive.rst ∉ s.host

/-- The micro-steps until the block is in IDLE (R211 d). -/
def stepsLeft (s : State) : Nat :=
  match s.phase with
  | .idle => 0
  | .ks => 16 - s.rnd.toNat
  | .blk => 17 - s.rnd.toNat
  | .fin => 1

/-- What the host drives next is nothing, or a word held until it is accepted: drives that a busy block leaves as
they are (R222). -/
def holds (host : List Drive) : Prop := host = [] ∨ ∃ w rest, host = .offer w :: rest

/-- Two states agree in every register of R20; what the host drives may differ. -/
def sameCore (s t : State) : Prop := { s with host := [] } = { t with host := [] }

/-- A text without its trailing NUL characters (R182). -/
def stripNulText (text : List Char) : List Char := (text.reverse.dropWhile fun ch => ch.toNat == 0).reverse

end Sys2Proof.Machine
end

