-- ==== Sys2Proof/Certificates/Slice0/Obligations.lean ====
section
/-! DEFINITION. The statements for the provers. Each docstring names the rule of spec/ it formalises. -/

open Sys2Proof Sys2Proof.Machine

/-! ### Formats (30_encoding.md) -/

/-- Decoding and encoding are inverse to each other: no bit of a command word is dropped (30_encoding.md
section 1). -/
def Obligations.DecodeEncodeInverse : Prop :=
  (∀ i : Instr, i.wf = true → decode (encode i) = i) ∧ ∀ w : CommandWord, encode (decode w) = w

/-- R71, R73: `op` alone selects the command, exactly one row of the opcode table matches a word, and it is the row
of the decoded command; R70's fields are what the command carries. -/
def Obligations.OpSelectsCommand : Prop :=
  ∀ w : CommandWord,
    (decode w).op = w.extractLsb' 72 3 ∧ (decode w).dlen = w.extractLsb' 64 8 ∧
    (decode w).data = w.extractLsb' 0 64 ∧
    (opcodeRows.filter fun row => w.toNat &&& row.2.1 == row.2.2).map (·.1) = [(decode w).mnemonic] ∧
    ∀ v : CommandWord, v.extractLsb' 72 3 = w.extractLsb' 72 3 → (decode v).mnemonic = (decode w).mnemonic

/-- The words of 95_test_vectors.md section 2.6 decode to the commands they stand for. -/
def Obligations.SpecWordsDecode : Prop :=
  decode 0x0000000000000000000#75 = .nop 0 0 ∧
  decode 0x140133457799BBCDFF1#75 = .loadkey 64 0x133457799BBCDFF1 ∧
  decode 0x13C0000000000000000#75 = .loadkey 60 0 ∧
  decode 0x2400123456789ABCDEF#75 = .enc 64 0x0123456789ABCDEF ∧
  decode 0x34085E813540F0AB405#75 = .dec 64 0x85E813540F0AB405 ∧
  decode 0x4000000000000000000#75 = .clear 0 0 ∧
  decode 0x5000000000000000000#75 = .reserved5 0 0 ∧
  decode 0x6000000000000000000#75 = .reserved6 0 0 ∧
  decode 0x7FFFFFFFFFFFFFFFFFF#75 = .reserved7 255 0xFFFFFFFFFFFFFFFF

/-- The response word's layout, and a host reads back from it exactly the response (30_encoding.md sections 1
and 4). -/
def Obligations.ResponseWordLayout : Prop :=
  ∀ r : Response,
    ((encodeResponse r).extractLsb' 65 3).toNat = r.status.code ∧ (encodeResponse r).getLsbD 64 = r.hasData ∧
    (encodeResponse r).extractLsb' 0 64 = r.data ∧ decodeResponse (encodeResponse r) = r

/-! ### The step relation and the ports (10_state.md section 11, 70_reset_and_hazards.md) -/

/-- In IDLE, with a well-formed command's word offered (held, or for this micro-step only), a step is `exec` of
that command, after the host has moved past the word. -/
def Obligations.StepRunsOfferedCommand : Prop :=
  ∀ (s : State) (i : Instr) (rest : List Drive), i.wf = true → s.phase = .idle →
    (s.host = .offer (encode i) :: rest ∨ s.host = .offerOnce (encode i) :: rest) →
    step s = exec i { s with host := rest }

/-- R210: in IDLE with no command offered the block does nothing and keeps all state; only the host moves on. -/
def Obligations.IdleKeepsAllState : Prop :=
  ∀ s : State, s.phase = .idle → s.host = [] ∨ (∃ rest, s.host = .idle :: rest) →
    step s = .next { s with host := s.host.tail }

/-- R217: asserting `rst` in any phase abandons the command in flight without a response and leaves the reset
state; without `rst`, a busy block runs its own micro-step whatever the host drives, so nothing else stops a
command. -/
def Obligations.ResetAbandonsCommand : Prop :=
  (∀ (s : State) (rest : List Drive), s.host = .rst :: rest → step s = .next (cleanReset rest)) ∧
  ∀ s : State, s.phase ≠ .idle → rstAsserted s = false → step s = coreMicroStep (afterNoAccept s)

/-- While the block is busy it does not look at the command port: whatever word is offered, held or for one
micro-step, every register moves as with nothing offered; a held word stays offered and is neither latched nor
dropped (70_reset_and_hazards.md section 3). -/
def Obligations.BusyHoldsOffer : Prop :=
  ∀ (s t : State) (rest : List Drive) (w : CommandWord), s.phase ≠ .idle → s.host = [] → step s = .next t →
    step { s with host := .offer w :: rest } = .next { t with host := .offer w :: rest } ∧
    step { s with host := .offerOnce w :: rest } = .next { t with host := rest } ∧
    step { s with host := .idle :: rest } = .next { t with host := rest }

/-- R33, R83, R215: the status view is `busy`, `cmd_ready`, `kvalid`, `elog`, a function of the state; `cmd_ready`
is 1 exactly when `PHASE = IDLE` and `rst` is not asserted (log entry 4), and it is the signal on the command port: a
command is accepted exactly when one is offered and it is 1. -/
def Obligations.StatusViewAndHandshake : Prop :=
  ∀ s : State,
    ((statusView s).busy = true ↔ s.phase ≠ .idle) ∧
    ((statusView s).cmdReady = true ↔ s.phase = .idle ∧ rstAsserted s = false) ∧
    (rstAsserted s = false → (statusView s).cmdReady = !(statusView s).busy) ∧
    (rstAsserted s = true → (statusView s).cmdReady = false) ∧
    (statusView s).kvalid = s.kvalid ∧ (statusView s).elog = s.elog ∧ cmdReadyPin s = (statusView s).cmdReady ∧
    (accepts s = true ↔ (offered s).isSome = true ∧ cmdReadyPin s = true)

/-! ### Commands (30_encoding.md R80, 41 to 43) -/

/-- R80: the accept micro-step. In IDLE with a command word offered, a step does exactly one of these, tested in
this order; the host has moved past the word (log entry 2). -/
def Obligations.AcceptTestsInOrder : Prop :=
  ∀ (w : CommandWord) (s : State) (rest : List Drive), s.phase = .idle →
    s.host = .offer w :: rest ∨ s.host = .offerOnce w :: rest →
    let op := opField w
    let dlen := dlenField w
    let data := dataField w
    let u := { s with host := rest }
    step s =
      if op = 5 ∨ op = 6 ∨ op = 7 then .next (refusedState .illegalCommand u)
      else if op = 0 then .next { u with resp := u.resp ++ [doneResponse] }
      else if op = 4 then .next { State.reset with resp := u.resp ++ [doneResponse], host := rest }
      else if op = 1 then
        if dlen ≠ 64 then .next (refusedState .invalidKeyLength u)
        else if u.kvalid = true then .next (refusedState .keyLocked u)
        else .next (startKeySchedule data u)
      else
        if dlen ≠ 64 then .next (refusedState .lengthMismatch u)
        else if u.kvalid = false then .next (refusedState .keyNotReady u)
        else .next (startBlock (if op = 3 then .decrypt else .encrypt) data u)

/-- R160: NOP completes in every state, with any fields: one response (0, 0, 0) and no register changed. -/
def Obligations.NopOnlyResponds : Prop :=
  ∀ (s : State) (dlen : BitVec 8) (data : Word64),
    exec (.nop dlen data) s =
      .next { s with resp := s.resp ++ [{ status := .ok, hasData := false, data := 0 }] }

/-- R162: CLEAR completes in every state, with any fields: every register as reset leaves it, `RESP` kept with
CLEAR's own response at its end. -/
def Obligations.ClearDiscardsInstance : Prop :=
  ∀ (s : State) (dlen : BitVec 8) (data : Word64),
    exec (.clear dlen data) s =
      .next
        { key := none, c := none, d := none, rk := Vector.replicate 16 none, kvalid := false, l := none, r := none,
          rnd := 0, dir := none, phase := .idle, elog := 0,
          resp := s.resp ++ [{ status := .ok, hasData := false, data := 0 }], host := s.host }

/-- R164, R197: each reserved opcode, with any fields and in any state, raises `IllegalCommand`: `ELOG[7] <- 1`,
response (7, 0, 0), no other change. -/
def Obligations.ReservedRaisesIllegalCommand : Prop :=
  ∀ (s : State) (dlen : BitVec 8) (data : Word64) (i : Instr),
    i = .reserved5 dlen data ∨ i = .reserved6 dlen data ∨ i = .reserved7 dlen data →
    exec i s =
      .next { s with
        elog := s.elog ||| 0x80#8
        resp := s.resp ++ [{ status := .error .illegalCommand, hasData := false, data := 0 }] }

/-- R111, R112: LOADKEY with `dlen = 64` and no key loaded completes its accept micro-step: `KEY` is the operand,
`C` and `D` are the listed key positions, `RND` is 0, `PHASE` is KS, and nothing else changes. -/
def Obligations.LoadkeyStartsSchedule : Prop :=
  ∀ (s : State) (data : Word64), s.kvalid = false →
    ∃ c d : Word28,
      exec (.loadkey 64 data) s =
        .next { s with key := some data, c := some c, d := some d, rnd := 0, phase := .ks } ∧
      (List.range 28).map (fun k => pos c (k + 1)) =
        ([57, 49, 41, 33, 25, 17, 9, 1, 58, 50, 42, 34, 26, 18, 10, 2, 59, 51, 43, 35, 27, 19, 11, 3, 60, 52, 44,
          36] : List Nat).map (pos data) ∧
      (List.range 28).map (fun k => pos d (k + 1)) =
        ([63, 55, 47, 39, 31, 23, 15, 7, 62, 54, 46, 38, 30, 22, 14, 6, 61, 53, 45, 37, 29, 21, 13, 5, 28, 20, 12,
          4] : List Nat).map (pos data)

/-- R193, R196: LOADKEY raises `InvalidKeyLength` exactly when `dlen != 64`, whatever `KVALID` is, and `KeyLocked`
exactly when `dlen = 64` and `KVALID = 1`; the key registers stay. -/
def Obligations.LoadkeyRefusals : Prop :=
  ∀ (s : State) (dlen : BitVec 8) (data : Word64),
    (dlen ≠ 64 → exec (.loadkey dlen data) s =
      .next { s with
        elog := s.elog ||| 0x04#8
        resp := s.resp ++ [{ status := .error .invalidKeyLength, hasData := false, data := 0 }] }) ∧
    (dlen = 64 → s.kvalid = true → exec (.loadkey dlen data) s =
      .next { s with
        elog := s.elog ||| 0x40#8
        resp := s.resp ++ [{ status := .error .keyLocked, hasData := false, data := 0 }] }) ∧
    (dlen = 64 → s.kvalid = false →
      ∃ t, exec (.loadkey dlen data) s = .next t ∧ t.resp = s.resp ∧ t.elog = s.elog)

/-- R131, R132: ENC and DEC with `dlen = 64` and a key loaded complete their accept micro-step: `L ‖ R` is the
initial permutation of the operand (by the closed form of R91: output position 8r+c+1 is input position
8(7-c) + b(r)), `DIR` is the direction, `RND` is 0, `PHASE` is BLK, and nothing else changes. -/
def Obligations.BlockCommandsStart : Prop :=
  ∀ (s : State) (data : Word64), s.kvalid = true →
    ∃ l r : Word32,
      exec (.enc 64 data) s =
        .next { s with l := some l, r := some r, dir := some .encrypt, rnd := 0, phase := .blk } ∧
      exec (.dec 64 data) s =
        .next { s with l := some l, r := some r, dir := some .decrypt, rnd := 0, phase := .blk } ∧
      ∀ row col : Fin 8,
        pos (l ++ r : BitVec 64) (8 * row.val + col.val + 1) =
          pos data (8 * (7 - col.val) + [2, 4, 6, 8, 1, 3, 5, 7].getD row.val 0)

/-- R194, R195: ENC and DEC raise `LengthMismatch` exactly when `dlen != 64`, whatever `KVALID` is, and
`KeyNotReady` exactly when `dlen = 64` and `KVALID = 0`; neither arises in any other way. -/
def Obligations.BlockCommandRefusals : Prop :=
  (∀ (s : State) (dlen : BitVec 8) (data : Word64) (i : Instr), i = .enc dlen data ∨ i = .dec dlen data →
    (dlen ≠ 64 → exec i s =
      .next { s with
        elog := s.elog ||| 0x08#8
        resp := s.resp ++ [{ status := .error .lengthMismatch, hasData := false, data := 0 }] }) ∧
    (dlen = 64 → s.kvalid = false → exec i s =
      .next { s with
        elog := s.elog ||| 0x20#8
        resp := s.resp ++ [{ status := .error .keyNotReady, hasData := false, data := 0 }] }) ∧
    (dlen = 64 → s.kvalid = true → ∃ t, exec i s = .next t ∧ t.resp = s.resp ∧ t.elog = s.elog)) ∧
  ∀ (i : Instr) (s t : State) (r : Response), exec i s = .next t → t.resp = s.resp ++ [r] →
    (r.status = .error .lengthMismatch → (i.op = 2 ∨ i.op = 3) ∧ i.dlen ≠ 64) ∧
    (r.status = .error .keyNotReady → (i.op = 2 ∨ i.op = 3) ∧ i.dlen = 64 ∧ s.kvalid = false)

/-- R192: an error is raised in the accept micro-step and leaves no partial effect (only `ELOG`, one bit, and
`RESP`, one entry, change); once a command has been started no error can arise. -/
def Obligations.ErrorsArePrecise : Prop :=
  (∀ (i : Instr) (s t : State) (r : Response) (e : ErrorName), exec i s = .next t → t.resp = s.resp ++ [r] →
    r.status = .error e → e.raisedByBlock = true ∧ r.hasData = false ∧ r.data = 0 ∧
      t = { s with elog := s.elog ||| (1#8 <<< e.code), resp := s.resp ++ [r] }) ∧
  ∀ s t : State, s.phase ≠ .idle → rstAsserted s = false → step s = .next t →
    t.elog = s.elog ∧ (t.resp = s.resp ∨ ∃ r, t.resp = s.resp ++ [r] ∧ r.status = .ok)

/-- R82: NOP, CLEAR and the reserved opcodes ignore `dlen` and `data`; LOADKEY, ENC and DEC ignore `data` when
`dlen != 64`; a key's parity bits influence no round key. -/
def Obligations.UnusedFieldsIgnored : Prop :=
  (∀ (s : State) (n m : BitVec 8) (x y : Word64),
    exec (.nop n x) s = exec (.nop m y) s ∧ exec (.clear n x) s = exec (.clear m y) s ∧
    exec (.reserved5 n x) s = exec (.reserved5 m y) s ∧ exec (.reserved6 n x) s = exec (.reserved6 m y) s ∧
    exec (.reserved7 n x) s = exec (.reserved7 m y) s) ∧
  (∀ (s : State) (n : BitVec 8) (x y : Word64), n ≠ 64 →
    exec (.loadkey n x) s = exec (.loadkey n y) s ∧ exec (.enc n x) s = exec (.enc n y) s ∧
    exec (.dec n x) s = exec (.dec n y) s) ∧
  ∀ k k' : Word64, (∀ p, 1 ≤ p → p ≤ 64 → p % 8 ≠ 0 → pos k p = pos k' p) → keySchedule k = keySchedule k'

/-! ### The micro-steps of a command in flight -/

/-- R113: the key-schedule round micro-step n = RND + 1 rotates both halves by SHIFT[n], each within its own 28
bits, writes `RK[n-1]` compressed from the rotated halves, sets `RND` to n and, in round 16 only, sets `KVALID`,
returns to IDLE and responds `OK` without data; every other register stays. -/
def Obligations.KeyScheduleRoundEffect : Prop :=
  ∀ (s : State) (c d : Word28) (h : s.rnd.toNat < 16), s.phase = .ks → s.c = some c → s.d = some d →
    rstAsserted s = false →
    ∃ (c' d' : Word28) (k : Word48),
      (∀ p, 1 ≤ p → p ≤ 28 →
        pos c' p = pos c ((p - 1 + romReadShift (s.rnd.toNat + 1)) % 28 + 1) ∧
        pos d' p = pos d ((p - 1 + romReadShift (s.rnd.toNat + 1)) % 28 + 1)) ∧
      (∀ p, 1 ≤ p → p ≤ 48 → pos k p = pos (c' ++ d' : BitVec 56) (romRead Rom.pc2 p)) ∧
      step s = .next { s with
        c := some c'
        d := some d'
        rk := s.rk.set s.rnd.toNat (some k)
        rnd := BitVec.ofNat 5 (s.rnd.toNat + 1)
        kvalid := s.kvalid || s.rnd.toNat == 15
        phase := if s.rnd.toNat = 15 then .idle else .ks
        resp := if s.rnd.toNat = 15 then s.resp ++ [doneResponse] else s.resp
        host := (afterNoAccept s).host }

/-- R134, R142: the Feistel round micro-step i = RND, with the round key `RK[i]` for ENC and `RK[15-i]` for DEC:
expand, mix, substitute, permute, mix with the left half, swap except in round 15; `RND` becomes i + 1, `PHASE`
becomes FIN after round 15; every other register stays and nothing is answered. -/
def Obligations.FeistelRoundEffect : Prop :=
  ∀ (s : State) (l r : Word32) (dir : Dir) (j : Fin 16) (k : Word48), s.phase = .blk → s.rnd.toNat < 16 →
    s.l = some l → s.r = some r → s.dir = some dir →
    (dir = .encrypt → j.val = s.rnd.toNat) → (dir = .decrypt → j.val = 15 - s.rnd.toNat) → s.rk[j] = some k →
    rstAsserted s = false →
    let x48 := permute Rom.e r
    let m48 := x48 ^^^ k
    let s32 := sboxStage m48
    let f32 := permute Rom.p s32
    let t := f32 ^^^ l
    step s = .next { s with
      l := if s.rnd.toNat < 15 then some r else some t
      r := if s.rnd.toNat < 15 then some t else some r
      rnd := BitVec.ofNat 5 (s.rnd.toNat + 1)
      phase := if s.rnd.toNat = 15 then .fin else .blk
      host := (afterNoAccept s).host }

/-- R146: the final micro-step answers `Permute(FP, L ‖ R)` with status `OK` and returns to IDLE; `L`, `R`, `RND`,
`DIR` and all else keep their values. -/
def Obligations.FinalMicroStepResponds : Prop :=
  ∀ (s : State) (l r : Word32), s.phase = .fin → s.l = some l → s.r = some r → rstAsserted s = false →
    ∃ out : Word64,
      (∀ p, 1 ≤ p → p ≤ 64 → pos out p = pos (l ++ r : BitVec 64) (romRead Rom.fp p)) ∧
      step s = .next { s with
        phase := .idle
        resp := s.resp ++ [{ status := .ok, hasData := true, data := out }]
        host := (afterNoAccept s).host }

/-! ### Primitives and tables (00_scope.md, 40_tables.md) -/

/-- R5: output position i of `Permute(T, X)` is input position `RomRead(T, i)`, for each of the six tables and
their shapes. -/
def Obligations.PermuteSelectsPositions : Prop :=
  (∀ (x : BitVec 64) (i : Nat), 1 ≤ i → i ≤ 64 → pos (permute Rom.ip x) i = pos x (romRead Rom.ip i)) ∧
  (∀ (x : BitVec 32) (i : Nat), 1 ≤ i → i ≤ 48 → pos (permute Rom.e x) i = pos x (romRead Rom.e i)) ∧
  (∀ (x : BitVec 32) (i : Nat), 1 ≤ i → i ≤ 32 → pos (permute Rom.p x) i = pos x (romRead Rom.p i)) ∧
  (∀ (x : BitVec 64) (i : Nat), 1 ≤ i → i ≤ 64 → pos (permute Rom.fp x) i = pos x (romRead Rom.fp i)) ∧
  (∀ (x : BitVec 64) (i : Nat), 1 ≤ i → i ≤ 56 → pos (permute Rom.pc1 x) i = pos x (romRead Rom.pc1 i)) ∧
  ∀ (x : BitVec 56) (i : Nat), 1 ≤ i → i ≤ 48 → pos (permute Rom.pc2 x) i = pos x (romRead Rom.pc2 i)

/-- R6: `rotl28` by 1 or 2, by positions and as integers. -/
def Obligations.RotateLeftByPositions : Prop :=
  ∀ (x : Word28) (n : Nat), n = 1 ∨ n = 2 →
    (∀ i, 1 ≤ i → i ≤ 28 → pos (rotl28 x n) i = pos x ((i - 1 + n) % 28 + 1)) ∧
    (rotl28 x n).toNat = (x.toNat * 2 ^ n) % 2 ^ 28 + x.toNat / 2 ^ (28 - n)

/-- R8, R9: an S-box lookup's row is made of the outer bits and its column of the inner bits; the S-box stage looks
group j up in box j and sets the eight outputs side by side. -/
def Obligations.SboxStageByGroups : Prop :=
  (∀ (j : Fin 8) (g : BitVec 6) (row : Fin 4) (col : Fin 16),
    row.val = 2 * (pos g 1).toNat + (pos g 6).toNat →
    col.val = 8 * (pos g 2).toNat + 4 * (pos g 3).toNat + 2 * (pos g 4).toNat + (pos g 5).toNat →
    sbox j g = romReadSbox j row col) ∧
  ∀ (x : Word48) (j : Fin 8) (g : BitVec 6),
    (∀ m, 1 ≤ m → m ≤ 6 → pos g m = pos x (6 * j.val + m)) →
    ∀ m, 1 ≤ m → m ≤ 4 → pos (sboxStage x) (4 * j.val + m) = pos (sbox j g) m

/-- R136: group j of the expanded half is input positions 4j-4 to 4j+1, taken cyclically over 1..32. -/
def Obligations.ExpansionIsCyclic : Prop :=
  ∀ (r : Word32) (j m : Nat), 1 ≤ j → j ≤ 8 → 1 ≤ m → m ≤ 6 →
    pos (permute Rom.e r) (6 * (j - 1) + m) = pos r ((4 * j + m + 26) % 32 + 1)

/-- R107: the structural properties of the tables. -/
def Obligations.TableProperties : Prop :=
  (∀ i, 1 ≤ i → i ≤ 64 → romRead Rom.fp (romRead Rom.ip i) = i ∧ romRead Rom.ip (romRead Rom.fp i) = i) ∧
  (∀ v, 1 ≤ v → v ≤ 64 → Rom.ip.entries.toList.count v = 1 ∧ Rom.fp.entries.toList.count v = 1) ∧
  (∀ v, 1 ≤ v → v ≤ 32 → Rom.p.entries.toList.count v = 1) ∧
  (∀ v, 1 ≤ v → v ≤ 32 → Rom.e.entries.toList.count v = if v % 4 = 0 ∨ v % 4 = 1 then 2 else 1) ∧
  (Rom.pc1.entries.toList.Nodup ∧ ∀ p ∈ Rom.pc1.entries.toList, p % 8 ≠ 0) ∧
  (Rom.pc2.entries.toList.Nodup ∧ (∀ p ∈ Rom.pc2.entries.toList.take 24, p ≤ 28) ∧
    (∀ p ∈ Rom.pc2.entries.toList.drop 24, 29 ≤ p) ∧
    ∀ v, 1 ≤ v → v ≤ 56 →
      (v ∉ Rom.pc2.entries.toList ↔ v ∈ ([9, 18, 22, 25, 35, 38, 43, 54] : List Nat))) ∧
  (Rom.shift.toList.sum = 28 ∧ ∀ n, 1 ≤ n → n ≤ 16 →
    romReadShift n = if n ∈ ([1, 2, 9, 16] : List Nat) then 1 else 2) ∧
  (Rom.sbox.toList.all SboxTable.wf = true ∧ Rom.ip.wf = true ∧ Rom.e.wf = true ∧ Rom.p.wf = true ∧
    Rom.fp.wf = true ∧ Rom.pc1.wf = true ∧ Rom.pc2.wf = true)

/-- R94 (its inverse clause): FP undoes IP and IP undoes FP, on every 64-bit value. -/
def Obligations.FinalUndoesInitial : Prop :=
  ∀ x : Word64, permute Rom.fp (permute Rom.ip x) = x ∧ permute Rom.ip (permute Rom.fp x) = x

/-! ### The key schedule and the engine as functions (41_key_scheduler.md section 3, 42_round_engine.md section 4) -/

/-- R110: from IDLE with no key, a LOADKEY with `dlen = 64` completes in 17 micro-steps (accept, sixteen rounds)
with `OK` and no data: `RK` is the key schedule of the key, `KVALID` is 1, `C` and `D` are back at their values
after PC1, `RND` is 16; the data halves, `DIR`, the log and earlier responses stay. -/
def Obligations.LoadkeyComputesSchedule : Prop :=
  ∀ (s : State) (key : Word64) (rest : List Drive), s.phase = .idle → s.kvalid = false → holds rest →
    s.host = .offer (encode (.loadkey 64 key)) :: rest →
    run 17 s = .next { s with
      key := some key
      c := some (leftKeyHalf (permute Rom.pc1 key))
      d := some (rightKeyHalf (permute Rom.pc1 key))
      rk := (keySchedule key).map some
      kvalid := true
      rnd := 16
      phase := .idle
      resp := s.resp ++ [doneResponse]
      host := rest }

/-- R144: from IDLE with round keys K loaded, ENC responds `Crypt(K, data)` and DEC responds `Crypt(reverse(K),
data)`, after 18 micro-steps (accept, sixteen rounds, final); the key registers, `KVALID`, the log and earlier
responses stay. -/
def Obligations.BlockCommandsComputeCrypt : Prop :=
  ∀ (s : State) (ks : Vector Word48 16) (data : Word64) (rest : List Drive), Ready ks s → holds rest →
    (s.host = .offer (encode (.enc 64 data)) :: rest →
      ∃ l r, run 18 s = .next { s with
        l := l, r := r, dir := some .encrypt, rnd := 16
        resp := s.resp ++ [{ status := .ok, hasData := true, data := crypt ks data }]
        host := rest }) ∧
    (s.host = .offer (encode (.dec 64 data)) :: rest →
      ∃ l r, run 18 s = .next { s with
        l := l, r := r, dir := some .decrypt, rnd := 16
        resp := s.resp ++ [{ status := .ok, hasData := true, data := crypt ks.reverse data }]
        host := rest })

/-- R147: running the engine with the reversed keys inverts it; hence on the machine, ENC then DEC of its result,
and DEC then ENC of its result, answer the original block. -/
def Obligations.DecryptionInvertsEncryption : Prop :=
  (∀ (ks : Vector Word48 16) (x : Word64), crypt ks.reverse (crypt ks x) = x) ∧
  ∀ (s : State) (k x : Word64), Keyed k s →
    (s.host = [.offer (encode (.enc 64 x))] →
      ∃ t y u, run 18 s = .next t ∧ t.resp = s.resp ++ [{ status := .ok, hasData := true, data := y }] ∧
        run 18 { t with host := [.offer (encode (.dec 64 y))] } = .next u ∧
        u.resp = t.resp ++ [{ status := .ok, hasData := true, data := x }]) ∧
    (s.host = [.offer (encode (.dec 64 x))] →
      ∃ t y u, run 18 s = .next t ∧ t.resp = s.resp ++ [{ status := .ok, hasData := true, data := y }] ∧
        run 18 { t with host := [.offer (encode (.enc 64 y))] } = .next u ∧
        u.resp = t.resp ++ [{ status := .ok, hasData := true, data := x }])

/-- The key schedule bit by bit: position i of Kn is position ((PC2[i] - 1 + t(n)) mod 28) + 1 of C0, or the same
of D0 from PC2[i] - 29, with t(n) the sum of the first n shifts, listed in R114 (41_key_scheduler.md section 3). -/
def Obligations.KeyScheduleBitwise : Prop :=
  ∀ (key : Word64) (n : Fin 16),
    let t := [1, 2, 4, 6, 8, 10, 12, 14, 15, 17, 19, 21, 23, 25, 27, 28].getD n.val 0
    let c0 := leftKeyHalf (permute Rom.pc1 key)
    let d0 := rightKeyHalf (permute Rom.pc1 key)
    (∀ i, 1 ≤ i → i ≤ 24 →
      pos (keySchedule key)[n] i = pos c0 ((romRead Rom.pc2 i - 1 + t) % 28 + 1)) ∧
    ∀ i, 25 ≤ i → i ≤ 48 → pos (keySchedule key)[n] i = pos d0 ((romRead Rom.pc2 i - 29 + t) % 28 + 1)

/-- R117: the rotations of the sixteen rounds add up to the identity, so the halves are back at their values after
PC1 and the last round key is compressed from the unrotated halves. -/
def Obligations.RotationsReturnHalves : Prop :=
  ∀ key : Word64,
    keyHalves key 16 = keyHalves key 0 ∧ (keySchedule key)[15] = permute Rom.pc2 (permute Rom.pc1 key)

/-- Two keys that differ only in parity positions give the same response to every ENC and DEC
(41_key_scheduler.md section 3). -/
def Obligations.ParityBitsInfluenceNothing : Prop :=
  ∀ (k k' : Word64) (s s' : State) (i : Instr) (x : Word64),
    (∀ p, 1 ≤ p → p ≤ 64 → p % 8 ≠ 0 → pos k p = pos k' p) → Keyed k s → Keyed k' s' →
    i = .enc 64 x ∨ i = .dec 64 x → s.host = [.offer (encode i)] → s'.host = [.offer (encode i)] →
    ∃ (t t' : State) (r : Response), run 18 s = .next t ∧ run 18 s' = .next t' ∧
      t.resp = s.resp ++ [r] ∧ t'.resp = s'.resp ++ [r] ∧ r.status = .ok ∧ r.hasData = true

/-- R120: the key schedule of the complemented key is the complement of the key schedule, key by key. -/
def Obligations.ScheduleOfComplement : Prop :=
  ∀ (k : Word64) (n : Fin 16), (keySchedule (~~~k))[n] = ~~~(keySchedule k)[n]

/-- R150: encrypting the complemented block under the complemented key gives the complemented result. -/
def Obligations.EncryptionOfComplement : Prop :=
  ∀ k x : Word64, crypt (keySchedule (~~~k)) (~~~x) = ~~~crypt (keySchedule k) x

/-- R151: with all sixteen round keys equal, the reversed list is the list and encrypting twice is the identity;
keys whose halves after PC1 are each all zeros or all ones are such, the two examples among them. -/
def Obligations.EqualRoundKeysSelfInverse : Prop :=
  (∀ (ks : Vector Word48 16) (x : Word64), (∀ i j : Fin 16, ks[i] = ks[j]) →
    ks.reverse = ks ∧ crypt ks (crypt ks x) = x) ∧
  (∀ key : Word64, ((keyHalves key 0).1 = 0 ∨ (keyHalves key 0).1 = BitVec.allOnes 28) →
    ((keyHalves key 0).2 = 0 ∨ (keyHalves key 0).2 = BitVec.allOnes 28) →
    ∀ i j : Fin 16, (keySchedule key)[i] = (keySchedule key)[j]) ∧
  (∀ i : Fin 16, (keySchedule 0x0101010101010101)[i] = 0 ∧
    (keySchedule 0xFEFEFEFEFEFEFEFE)[i] = BitVec.allOnes 48)

/-- R62: the response to an ENC or DEC depends only on its data, its direction and the sixteen round keys: two
states that agree in those, and in nothing else, answer alike. -/
def Obligations.BlocksAreIndependent : Prop :=
  ∀ (s s' : State) (ks : Vector Word48 16) (i : Instr) (x : Word64), Ready ks s → Ready ks s' →
    i = .enc 64 x ∨ i = .dec 64 x → s.host = [.offer (encode i)] → s'.host = [.offer (encode i)] →
    ∃ (t t' : State) (r : Response), run 18 s = .next t ∧ run 18 s' = .next t' ∧
      t.resp = s.resp ++ [r] ∧ t'.resp = s'.resp ++ [r] ∧ r.status = .ok ∧ r.hasData = true

/-! ### Reset and invariants (10_state.md sections 8, 9) -/

/-- R37: the reset values. -/
def Obligations.ResetValues : Prop :=
  State.reset.phase = .idle ∧ State.reset.kvalid = false ∧ State.reset.rnd = 0 ∧ State.reset.elog = 0x00 ∧
  State.reset.resp = [] ∧ State.reset.key = none ∧ State.reset.c = none ∧ State.reset.d = none ∧
  (∀ i : Fin 16, State.reset.rk[i] = none) ∧ State.reset.l = none ∧ State.reset.r = none ∧ State.reset.dir = none

/-- The invariants of R36 hold after reset, whatever the host will drive. -/
def Obligations.InvariantsAtReset : Prop := ∀ host : List Drive, (cleanReset host).Inv

/-- R36: every step keeps the invariants, from every state that has them, whatever the host drives. -/
def Obligations.StepKeepsInvariants : Prop := ∀ s t : State, s.Inv → step s = .next t → t.Inv

/-- R36 h with R211: a state with the invariants always has a next state: no unspecified register is read, nothing
is refused, the core is never stuck. -/
def Obligations.StepNeverStops : Prop := ∀ s : State, s.Inv → ∃ t, step s = .next t

/-- From reset, for every list of drives and every number of steps, the machine goes on and the invariants hold
(10_state.md section 8). -/
def Obligations.RunsFromResetAreSafe : Prop :=
  ∀ (host : List Drive) (n : Nat), ∃ t, run n (cleanReset host) = .next t ∧ t.Inv

/-- R211 d: every command in flight ends: from a state with the invariants the block is in IDLE after exactly the
micro-steps left, at most 17, and not before; the host can only stop it with `rst`. -/
def Obligations.BusyPhasesEnd : Prop :=
  ∀ s : State, s.Inv → noRst s → stepsLeft s ≤ 17 ∧ (∃ t, run (stepsLeft s) s = .next t ∧ t.phase = .idle) ∧
    ∀ n t, n < stepsLeft s → run n s = .next t → t.phase ≠ .idle

/-- R36 f with R79: in any run without `rst`, the responses emitted are as many as the commands accepted, but for
the one in flight; earlier responses stay, in order. -/
def Obligations.OneResponsePerCommand : Prop :=
  ∀ (n : Nat) (s t : State), noRst s → run n s = .next t →
    t.resp.length + inFlight t = s.resp.length + inFlight s + acceptedIn n s ∧ s.resp <+: t.resp

/-- R26: `KVALID` is set by the sixteenth key-schedule micro-step and by nothing else, and cleared by reset and by
CLEAR and by nothing else. -/
def Obligations.KvalidWrittenOnlyAsStated : Prop :=
  ∀ s t : State, step s = .next t →
    (s.kvalid = false → t.kvalid = true → s.phase = .ks ∧ s.rnd = 15 ∧ rstAsserted s = false) ∧
    (s.phase = .ks → s.rnd = 15 → rstAsserted s = false → t.kvalid = true) ∧
    (discards s = true → t.kvalid = false) ∧ (s.kvalid = true → t.kvalid = false → discards s = true)

/-- R36 b: while `KVALID = 1` no step writes `KEY`, `C`, `D` or `RK`, or clears `KVALID`, except CLEAR and
reset. -/
def Obligations.LoadedKeyIsImmutable : Prop :=
  ∀ s t : State, s.Inv → s.kvalid = true → step s = .next t → discards s = false →
    t.key = s.key ∧ t.c = s.c ∧ t.d = s.d ∧ t.rk = s.rk ∧ t.kvalid = true

/-- R32: the log is sticky: reset and CLEAR make it zero, and in any other step bit b of it is set exactly when it
was set or a response with error code b is emitted; bits 0, 1 and 4 are never set; the host reads the log in the
status view, and it is zero after reset. -/
def Obligations.ErrorLogIsSticky : Prop :=
  State.reset.elog = 0 ∧
  ∀ s t : State, step s = .next t →
    (statusView t).elog = t.elog ∧
    (discards s = true → t.elog = 0) ∧
    (discards s = false → ∀ b, b < 8 → (t.elog.getLsbD b = true ↔ s.elog.getLsbD b = true ∨
      ∃ (r : Response) (e : ErrorName), t.resp = s.resp ++ [r] ∧ r.status = .error e ∧ e.code = b)) ∧
    ∀ b ∈ ([0, 1, 4] : List Nat), s.elog.getLsbD b = false → t.elog.getLsbD b = false

/-- R31: `PHASE` has four values with their codes; its transitions, each with its cause, and no other (`rst` aside,
which R217 gives). -/
def Obligations.PhaseTransitions : Prop :=
  (Phase.idle.code = 0 ∧ Phase.ks.code = 1 ∧ Phase.blk.code = 2 ∧ Phase.fin.code = 3) ∧
  ∀ s t : State, step s = .next t → rstAsserted s = false →
    match s.phase with
    | .idle =>
      (t.phase = .ks ↔ ∃ w, offered s = some w ∧ opField w = 1 ∧ dlenField w = 64 ∧ s.kvalid = false) ∧
      (t.phase = .blk ↔
        ∃ w, offered s = some w ∧ (opField w = 2 ∨ opField w = 3) ∧ dlenField w = 64 ∧ s.kvalid = true) ∧
      t.phase ≠ .fin
    | .ks => t.phase = if s.rnd = 15 then .idle else .ks
    | .blk => t.phase = if s.rnd = 15 then .fin else .blk
    | .fin => t.phase = .idle

/-- R219: a LOADKEY from `CleanReset` reaches `Keyed(k)`, with `RESP` holding one `OK` entry. -/
def Obligations.LoadkeyReachesKeyed : Prop :=
  ∀ k : Word64, ∃ t, run 17 (cleanReset [.offer (encode (.loadkey 64 k))]) = .next t ∧ Keyed k t ∧
    t.resp = [doneResponse] ∧ runOver t = true

/-! ### The host's side (44_host_facade.md, 30_encoding.md section 6) -/

/-- The hex of a block reads back as the block, digit by digit from its first DES positions, in upper case
(44_host_facade.md section 1). -/
def Obligations.HexRoundTrip : Prop :=
  ∀ x : Word64,
    (binaryToHex (wordBits x)).length = 16 ∧ operandFields (binaryToHex (wordBits x)) = .ok (64, x) ∧
    (∀ ch ∈ binaryToHex (wordBits x), (hexValue ch).isSome = true ∧ ch.toNat < 97) ∧
    ∀ m : Fin 16, ((binaryToHex (wordBits x))[m.val]?.bind hexValue) = some (x.extractLsb' (60 - 4 * m.val) 4)

/-- R175: the number of blocks, the length of each, and the message back from the blocks once the padding is
taken off; the padding is `'0'` digits. The empty string has no block, by R175's formula (log entry 18). -/
def Obligations.BlocksSplitTheMessage : Prop :=
  ∀ hex : List Char,
    (splitIntoBlocks hex).length = (hex.length + 15) / 16 ∧ (∀ b ∈ splitIntoBlocks hex, b.length = 16) ∧
    (splitIntoBlocks hex).flatten = hex ++ List.replicate ((hex.length + 15) / 16 * 16 - hex.length) '0'

/-- The ciphertext of a text on a keyed block has `ceil(byteLen / 8) * 16` hex digits, and the block is keyed as
before (44_host_facade.md section 3; log entries 13, 14 and 18). -/
def Obligations.CiphertextLength : Prop :=
  ∀ (k : Word64) (s : State) (text : List Char), Keyed k s →
    ∃ hex t, encryptText text s = (.ok hex, t) ∧ hex.length = ((utf8Encode text).length + 7) / 8 * 16 ∧ Keyed k t

/-- R182: on a keyed block, `decryptText(encryptText(T))` is T with all trailing NUL characters removed (log entries
13, 14 and 18). -/
def Obligations.TextRoundTrip : Prop :=
  ∀ (k : Word64) (s : State) (text : List Char), Keyed k s →
    ∃ hex t u, encryptText text s = (.ok hex, t) ∧ decryptText hex t = (.ok (stripNulText text), u)

/-- R84: a line of a mnemonic and 16 hex digits assembles to the command with `dlen = 64` and the digits as
`data`. -/
def Obligations.AssemblerLines : Prop :=
  ∀ x : Word64,
    assembleLine (['L', 'O', 'A', 'D', 'K', 'E', 'Y', ' '] ++ binaryToHex (wordBits x)) = .ok [.loadkey 64 x] ∧
    assembleLine (['E', 'N', 'C', ' '] ++ binaryToHex (wordBits x)) = .ok [.enc 64 x] ∧
    assembleLine (['D', 'E', 'C', ' '] ++ binaryToHex (wordBits x)) = .ok [.dec 64 x] ∧
    assembleLine (['R', 'E', 'K', 'E', 'Y', ' '] ++ binaryToHex (wordBits x)) = .ok [.clear 0 0, .loadkey 64 x]
end

