-- ==== Sys2Proof/Laws/Bits.lean ====
section
/-! SUPPORT. DES positions: what `pos` reads in each operation on bit strings, and `permute` by positions. -/

namespace Sys2Proof.Machine

theorem pos_eq_getMsbD {w : Nat} (x : BitVec w) (k : Nat) : pos x k = x.getMsbD (k - 1) := rfl

/-- Two values that agree in every DES position are equal. -/
theorem eq_of_pos {w : Nat} {x y : BitVec w} (h : ∀ k, 1 ≤ k → k ≤ w → pos x k = pos y k) : x = y := by
  apply BitVec.eq_of_getMsbD_eq
  intro i hi
  have := h (i + 1) (by omega) (by omega)
  simpa [pos] using this

@[simp] theorem pos_xor {w : Nat} (x y : BitVec w) (k : Nat) : pos (x ^^^ y) k = (pos x k ^^ pos y k) := by
  simp [pos, BitVec.getMsbD_xor]

theorem pos_not {w : Nat} (x : BitVec w) (k : Nat) (h1 : 1 ≤ k) (h2 : k ≤ w) : pos (~~~x) k = !pos x k := by
  simp [pos, BitVec.getMsbD_not]; omega

/-- The table entry at an index in range. -/
theorem romRead_eq {lin lout : Nat} (T : PermTable lin lout) (i : Nat) (h1 : 1 ≤ i) (h2 : i ≤ lout) :
    romRead T i = T.entries[i - 1] := dif_pos ⟨h1, h2⟩

/-- The shift of a round in range. -/
theorem romReadShift_eq (n : Nat) (h1 : 1 ≤ n) (h2 : n ≤ 16) : romReadShift n = Rom.shift[n - 1] :=
  dif_pos ⟨h1, h2⟩

/-- Output position i of a permutation is input position `RomRead(T, i)` (R5). -/
theorem pos_permute {lin lout : Nat} (T : PermTable lin lout) (x : BitVec lin) (i : Nat) (h1 : 1 ≤ i)
    (h2 : i ≤ lout) : pos (permute T x) i = pos x (romRead T i) := by
  have h : i - 1 < T.entries.toList.length := by simp; omega
  rw [romRead_eq T i h1 h2]
  simp only [pos, permute, BitVec.getMsbD_cast, BitVec.getMsbD_ofBoolListBE]
  have h' : i - 1 < lout := by omega
  simp [List.getD_eq_getElem?_getD, h']
  rfl

/-- Positions of `A ‖ B`: those of A first. -/
theorem pos_append {a b : Nat} (x : BitVec a) (y : BitVec b) (k : Nat) (h1 : 1 ≤ k) :
    pos (x ++ y) k = if k ≤ a then pos x k else pos y (k - a) := by
  simp only [pos, BitVec.getMsbD_append]
  by_cases h : k ≤ a
  · have : k - 1 < a := by omega
    simp [h, this]
  · have h2 : ¬ k - 1 < a := by omega
    have : k - 1 - a = k - a - 1 := by omega
    simp [h, h2, this]

/-- A value is its left part before its right part. -/
theorem extract_append_extract {a b : Nat} (y : BitVec (a + b)) : y.extractLsb' b a ++ y.extractLsb' 0 b = y := by
  apply BitVec.eq_of_getLsbD_eq
  intro i hi
  rw [BitVec.getLsbD_append]
  split
  · simp [*]
  · have : i - b < a := by omega
    simp only [BitVec.getLsbD_extractLsb', this, decide_true, Bool.true_and]
    congr 1; omega

theorem joinBlock_halves (y : Word64) : joinBlock (leftHalf y) (rightHalf y) = y :=
  extract_append_extract (a := 32) (b := 32) y

theorem joinKey_halves (y : BitVec 56) : joinKey (leftKeyHalf y) (rightKeyHalf y) = y :=
  extract_append_extract (a := 28) (b := 28) y

theorem extract_left_append {a b : Nat} (x : BitVec a) (y : BitVec b) : (x ++ y).extractLsb' b a = x := by
  apply BitVec.eq_of_getLsbD_eq
  intro i hi
  simp [BitVec.getLsbD_append, hi]

theorem extract_right_append {a b : Nat} (x : BitVec a) (y : BitVec b) : (x ++ y).extractLsb' 0 b = y := by
  apply BitVec.eq_of_getLsbD_eq
  intro i hi
  simp [BitVec.getLsbD_append, hi]

theorem leftHalf_joinBlock (l r : Word32) : leftHalf (joinBlock l r) = l :=
  extract_left_append (a := 32) (b := 32) l r

theorem rightHalf_joinBlock (l r : Word32) : rightHalf (joinBlock l r) = r :=
  extract_right_append (a := 32) (b := 32) l r

theorem pos_leftKeyHalf (y : BitVec 56) (k : Nat) (h1 : 1 ≤ k) (h2 : k ≤ 28) : pos (leftKeyHalf y) k = pos y k := by
  conv_rhs => rw [← joinKey_halves y, joinKey, pos_append _ _ _ h1, if_pos h2]

theorem pos_rightKeyHalf (y : BitVec 56) (k : Nat) (h1 : 1 ≤ k) : pos (rightKeyHalf y) k = pos y (k + 28) := by
  conv_rhs => rw [← joinKey_halves y, joinKey, pos_append _ _ _ (by omega), if_neg (by omega)]
  simp

/-- Rotation by positions: position k comes from position k + n, cyclically (R6). -/
theorem pos_rotl28 (x : Word28) (n k : Nat) (h1 : 1 ≤ k) (h2 : k ≤ 28) :
    pos (rotl28 x n) k = pos x ((k - 1 + n) % 28 + 1) := by
  simp only [pos, rotl28, BitVec.getMsbD_rotateLeft]
  have : k - 1 < 28 := by omega
  simp [this, Nat.add_comm]

/-- A permutation moves bits, so it commutes with xor. -/
theorem permute_xor {lin lout : Nat} (T : PermTable lin lout) (x y : BitVec lin) :
    permute T (x ^^^ y) = permute T x ^^^ permute T y := by
  apply eq_of_pos
  intro k h1 h2
  simp [pos_permute, h1, h2]

/-- A table whose entries are positions of its input commutes with complement. -/
theorem permute_not {lin lout : Nat} (T : PermTable lin lout) (hT : T.wf = true) (x : BitVec lin) :
    permute T (~~~x) = ~~~permute T x := by
  apply eq_of_pos
  intro k h1 h2
  have hk : k - 1 < lout := by omega
  have := (List.all_eq_true.mp hT) (T.entries[k - 1]) (by simp)
  simp only [Bool.and_eq_true, decide_eq_true_eq] at this
  rw [pos_not _ _ h1 h2, pos_permute _ _ _ h1 h2, pos_permute _ _ _ h1 h2, romRead_eq T k h1 h2,
    pos_not _ _ this.1 this.2]

/-- Two tables one after the other are the identity where each undoes the other's entries (R94). -/
theorem permute_permute_eq {n m : Nat} (S : PermTable m n) (T : PermTable n m)
    (h : ∀ i, 1 ≤ i → i ≤ n → 1 ≤ romRead S i ∧ romRead S i ≤ m ∧ romRead T (romRead S i) = i) (x : BitVec n) :
    permute S (permute T x) = x := by
  apply eq_of_pos
  intro k h1 h2
  obtain ⟨ha, hb, hc⟩ := h k h1 h2
  rw [pos_permute _ _ _ h1 h2, pos_permute _ _ _ ha hb, hc]

end Sys2Proof.Machine
end

