-- ==== Sys2Proof/Laws/Codec.lean ====
section
/-! SUPPORT. The host's codec (44_host_facade.md section 1): hex digits and bits back and forth, blocks of a
message, and UTF-8 back and forth. -/

namespace Sys2Proof.Machine

/-- A digit written by the codec reads back as its value (R171, R172). -/
@[simp] theorem hexValue_hexDigit (v : BitVec 4) : hexValue (hexDigit v) = some v := by
  revert v; decide

/-- The digits the codec writes are upper case (R172). -/
theorem hexDigit_upper (v : BitVec 4) : (hexDigit v).toNat < 97 := by
  revert v; decide

theorem nibble_ofBoolListBE (b0 b1 b2 b3 : Bool) :
    nibbleBits (BitVec.ofBoolListBE [b0, b1, b2, b3] : BitVec 4) = [b0, b1, b2, b3] := by
  cases b0 <;> cases b1 <;> cases b2 <;> cases b3 <;> decide

theorem ofBoolListBE_nibble (v : BitVec 4) :
    (BitVec.ofBoolListBE [v.getMsbD 0, v.getMsbD 1, v.getMsbD 2, v.getMsbD 3] : BitVec 4) = v := by
  revert v; decide

/-- Induction over a bit string in chunks of four. -/
theorem chunks_induct {P : List Bool → Prop} (short : ∀ l, l.length < 4 → P l)
    (chunk : ∀ b0 b1 b2 b3 rest, P rest → P (b0 :: b1 :: b2 :: b3 :: rest)) (l : List Bool) : P l := by
  induction l using hexOfChunks.induct with
  | case1 b0 b1 b2 b3 rest ih => exact chunk b0 b1 b2 b3 rest ih
  | case2 l hne =>
    match l, hne with
    | [], _ => exact short _ (by simp)
    | [_], _ => exact short _ (by simp)
    | [_, _], _ => exact short _ (by simp)
    | [_, _, _], _ => exact short _ (by simp)
    | a :: b :: c :: d :: rest, hne => exact absurd rfl (hne a b c d rest)

theorem hexOfChunks_short (l : List Bool) (h : l.length < 4) : hexOfChunks l = [] := by
  match l, h with
  | [], _ => simp [hexOfChunks]
  | [_], _ => simp [hexOfChunks]
  | [_, _], _ => simp [hexOfChunks]
  | [_, _, _], _ => simp [hexOfChunks]

/-- The hex of bits in whole chunks reads back as the bits (R171, R172). -/
theorem hexToBinary_hexOfChunks (bits : List Bool) (h : bits.length % 4 = 0) :
    hexToBinary (hexOfChunks bits) = .ok bits := by
  induction bits using chunks_induct with
  | chunk b0 b1 b2 b3 rest ih =>
    have := ih (by simp at h; omega)
    rw [hexOfChunks, hexToBinary, hexValue_hexDigit]
    simp only [this, nibble_ofBoolListBE]
    rfl
  | short l hl => rw [List.length_eq_zero_iff.mp (by omega : l.length = 0)]; rfl

theorem length_hexOfChunks (bits : List Bool) : (hexOfChunks bits).length = bits.length / 4 := by
  induction bits using chunks_induct with
  | chunk b0 b1 b2 b3 rest ih => simp [hexOfChunks, ih]; omega
  | short l hl => rw [hexOfChunks_short l hl]; simp; omega

/-- The digits of chunks appended are the digits of the one and then of the other. -/
theorem hexOfChunks_append (a b : List Bool) (h : a.length % 4 = 0) :
    hexOfChunks (a ++ b) = hexOfChunks a ++ hexOfChunks b := by
  induction a using chunks_induct with
  | chunk b0 b1 b2 b3 rest ih =>
    simp only [List.cons_append, hexOfChunks, ih (by simp at h; omega)]
  | short l hl => rw [List.length_eq_zero_iff.mp (by omega : l.length = 0)]; rfl

/-- Every character `hexOfChunks` writes is an upper-case digit. -/
theorem hexOfChunks_digits (bits : List Bool) : ∀ ch ∈ hexOfChunks bits, ∃ v, ch = hexDigit v := by
  induction bits using chunks_induct with
  | chunk b0 b1 b2 b3 rest ih =>
    intro ch hc
    rcases List.mem_cons.mp hc with h | h
    · exact ⟨_, h⟩
    · exact ih ch h
  | short l hl => simp [hexOfChunks_short l hl]

@[simp] theorem length_wordBits (x : Word64) : (wordBits x).length = 64 := by simp [wordBits]

/-- A block's bits spell the block (R55, R56). -/
@[simp] theorem bitsWord_wordBits (x : Word64) : bitsWord (wordBits x) = x := by
  apply BitVec.eq_of_getMsbD_eq
  intro i hi
  simp only [bitsWord, BitVec.getMsbD_setWidth, BitVec.getMsbD_ofBoolListBE, wordBits]
  simp [List.getD_eq_getElem?_getD, hi]

theorem binaryToHex_wordBits (x : Word64) : binaryToHex (wordBits x) = hexOfChunks (wordBits x) := by
  simp [binaryToHex]

@[simp] theorem length_binaryToHex_wordBits (x : Word64) : (binaryToHex (wordBits x)).length = 16 := by
  rw [binaryToHex_wordBits, length_hexOfChunks]; simp

/-- The operand a host sends for the hex of a block (R72). -/
@[simp] theorem operandFields_binaryToHex (x : Word64) : operandFields (binaryToHex (wordBits x)) = .ok (64, x) := by
  rw [operandFields, length_binaryToHex_wordBits, binaryToHex_wordBits, hexToBinary_hexOfChunks _ (by simp)]
  simp [declaredLength]

/-- Sixteen digits the codec wrote are the hex of one block. -/
theorem exists_word_of_digits (hex : List Char) (hl : hex.length = 16) (hd : ∀ ch ∈ hex, ∃ v, ch = hexDigit v) :
    ∃ x, hex = binaryToHex (wordBits x) := by
  have key : ∀ n (hex : List Char), hex.length = n → (∀ ch ∈ hex, ∃ v, ch = hexDigit v) →
      ∃ bits : List Bool, bits.length = 4 * n ∧ hex = hexOfChunks bits := by
    intro n
    induction n with
    | zero => intro hex h _; exact ⟨[], rfl, by simpa [hexOfChunks] using h⟩
    | succ n ih =>
      intro hex h hd
      match hex, h, hd with
      | ch :: rest, h, hd =>
        obtain ⟨v, rfl⟩ := hd ch (by simp)
        obtain ⟨bits, hb, rfl⟩ := ih rest (by simpa using h) (fun c hc => hd c (by simp [hc]))
        refine ⟨nibbleBits v ++ bits, by simp [nibbleBits, hb]; omega, ?_⟩
        simp only [nibbleBits, List.cons_append, List.nil_append, hexOfChunks, ofBoolListBE_nibble]
  obtain ⟨bits, hb, rfl⟩ := key 16 hex hl hd
  refine ⟨bitsWord bits, ?_⟩
  rw [binaryToHex_wordBits]
  congr 1
  apply List.ext_getElem (by simp [hb])
  intro i h1 h2
  have hi : i < 64 := by simpa using h2
  simp only [wordBits, bitsWord, List.getElem_map, List.getElem_range, BitVec.getMsbD_setWidth,
    BitVec.getMsbD_ofBoolListBE]
  simp [hb, hi, List.getD_eq_getElem?_getD]

@[simp] theorem splitIntoBlocks_nil : splitIntoBlocks [] = [] := by decide

/-- The first block of a message and the blocks of the rest (R175). -/
theorem splitIntoBlocks_cons (hex : List Char) (h : hex ≠ []) :
    splitIntoBlocks hex = padChunk 16 (hex.take 16) :: splitIntoBlocks (hex.drop 16) := by
  have hl : 0 < hex.length := List.length_pos_iff.mpr h
  have hn : (hex.length + 16 - 1) / 16 = ((hex.drop 16).length + 16 - 1) / 16 + 1 := by
    simp only [List.length_drop]; omega
  simp only [splitIntoBlocks, if_neg (show ¬ (16 = 0) by decide)]
  rw [hn, List.range_succ_eq_map, List.map_cons, List.map_map]
  simp only [Nat.mul_zero, List.drop_zero, List.cons.injEq, true_and]
  apply List.map_congr_left
  intro m _
  simp only [Function.comp, List.drop_drop]
  congr 3
  omega

theorem length_padChunk (c : List Char) (h : c.length ≤ 16) : (padChunk 16 c).length = 16 := by
  simp [padChunk]; omega

/-- Whole blocks split back into themselves (R175). -/
theorem splitIntoBlocks_flatten (bs : List (List Char)) (h : ∀ b ∈ bs, b.length = 16) :
    splitIntoBlocks bs.flatten = bs := by
  induction bs with
  | nil => simp
  | cons b bs ih =>
    have hb : b.length = 16 := h b (by simp)
    rw [List.flatten_cons, splitIntoBlocks_cons _ (by intro e; simp at e; simp [e.1] at hb)]
    rw [List.take_left' hb, List.drop_left' hb, ih (fun c hc => h c (by simp [hc]))]
    simp [padChunk, hb]

/-- A character's number spells it. -/
theorem char_ofNat_toNat (ch : Char) : Char.ofNat ch.toNat = ch := by simp

/-- The bytes of one character read back as it, whatever follows them (R173, R174). -/
theorem utf8Next_encode (ch : Char) (rest : List Byte) : utf8Next (utf8EncodeChar ch ++ rest) = some (ch, rest) := by
  have hlt : ch.toNat < 0x110000 := by
    have := ch.valid
    simp only [UInt32.isValidChar, Nat.isValidChar] at this
    have h2 : ch.toNat = ch.val.toNat := rfl
    omega
  have key : ∀ l : List Byte, l = utf8EncodeChar ch → utf8Candidate (l ++ rest) = (l.length, ch.toNat) →
      0 < l.length → utf8Next (l ++ rest) = some (ch, rest) := by
    intro l hl hc hp
    simp only [utf8Next, hc]
    rw [if_pos ⟨hp, by rw [char_ofNat_toNat, ← hl, List.take_left' rfl]⟩, char_ofNat_toNat, List.drop_left' rfl]
  apply key _ rfl
  · unfold utf8EncodeChar
    simp only
    split
    · simp only [utf8Candidate, List.cons_append, List.nil_append, List.getD_cons_zero, BitVec.toNat_ofNat]
      rw [if_pos (by omega)]
      refine Prod.ext rfl ?_
      simp only; omega
    · split
      · simp only [utf8Candidate, List.cons_append, List.nil_append, List.getD_cons_zero, List.getD_cons_succ,
          BitVec.toNat_ofNat]
        rw [if_neg (by omega), if_neg (by omega), if_pos (by omega)]
        refine Prod.ext rfl ?_
        simp only; omega
      · split
        · simp only [utf8Candidate, List.cons_append, List.nil_append, List.getD_cons_zero, List.getD_cons_succ,
            BitVec.toNat_ofNat]
          rw [if_neg (by omega), if_neg (by omega), if_neg (by omega), if_pos (by omega)]
          refine Prod.ext rfl ?_
          simp only; omega
        · simp only [utf8Candidate, List.cons_append, List.nil_append, List.getD_cons_zero, List.getD_cons_succ,
            BitVec.toNat_ofNat]
          rw [if_neg (by omega), if_neg (by omega), if_neg (by omega), if_neg (by omega)]
          refine Prod.ext rfl ?_
          simp only; omega
  · unfold utf8EncodeChar
    simp only
    split
    · simp
    · split
      · simp
      · split <;> simp

theorem utf8EncodeChar_ne_nil (ch : Char) : utf8EncodeChar ch ≠ [] := by
  unfold utf8EncodeChar
  simp only
  split
  · simp
  · split
    · simp
    · split <;> simp

theorem utf8DecodeUpTo_encode (text : List Char) (fuel : Nat) (h : (utf8Encode text).length ≤ fuel) :
    utf8DecodeUpTo fuel (utf8Encode text) = some text := by
  induction text generalizing fuel with
  | nil => cases fuel <;> rfl
  | cons ch text ih =>
    have hne := utf8EncodeChar_ne_nil ch
    have hcons : utf8Encode (ch :: text) = utf8EncodeChar ch ++ utf8Encode text := rfl
    rw [hcons] at h ⊢
    have hp : 0 < (utf8EncodeChar ch).length := List.length_pos_iff.mpr hne
    match fuel, h with
    | 0, h => simp at h; exact absurd h.1 hne
    | fuel + 1, h =>
      have hnext := utf8Next_encode ch (utf8Encode text)
      generalize hb : utf8EncodeChar ch ++ utf8Encode text = bytes at hnext h ⊢
      match bytes, hb, hnext, h with
      | [], hb, _, _ => simp at hb; exact absurd hb.1 hne
      | b :: bytes, hb, hnext, h =>
        rw [utf8DecodeUpTo, hnext]
        simp only
        rw [ih fuel (by rw [← hb] at h; simp at h; omega)]
        rfl

/-- UTF-8 bytes read back as the text (R173, R174). -/
theorem utf8Decode_encode (text : List Char) : utf8Decode (utf8Encode text) = some text :=
  utf8DecodeUpTo_encode text _ (Nat.le_refl _)

/-- A pair of digits written for a byte reads back as the byte. -/
theorem byte_of_halves (b : Byte) : (b.extractLsb' 4 4 ++ b.extractLsb' 0 4 : BitVec 8) = b :=
  extract_append_extract (a := 4) (b := 4) b

theorem hexPairs_hexOfBytes (bytes : List Byte) (tail : List Char) :
    hexPairs (bytes.flatMap hexOfByte ++ tail) =
      match hexPairs tail with
      | .ok more => .ok (bytes ++ more)
      | .error e => .error e := by
  induction bytes with
  | nil => simp only [List.flatMap_nil, List.nil_append]; split <;> simp_all
  | cons b bytes ih =>
    simp only [List.flatMap_cons, hexOfByte, List.cons_append, List.nil_append, hexPairs, hexValue_hexDigit, ih,
      byte_of_halves]
    cases hexPairs tail <;> rfl

/-- Padding digits read as zero bytes (R175, R179). -/
theorem hexPairs_zeros (n : Nat) : hexPairs (List.replicate (2 * n) '0') = .ok (List.replicate n 0) := by
  induction n with
  | zero => rfl
  | succ n ih =>
    rw [show 2 * (n + 1) = 2 * n + 1 + 1 by omega, List.replicate_succ, List.replicate_succ, hexPairs, ih,
      List.replicate_succ]
    rfl

theorem stripNul_append_zeros (bytes : List Byte) (n : Nat) :
    stripNul (bytes ++ List.replicate n 0) = stripNul bytes := by
  simp only [stripNul, List.reverse_append, List.reverse_replicate]
  congr 1
  induction n with
  | zero => simp
  | succ n ih => rw [List.replicate_succ, List.cons_append, List.dropWhile_cons_of_pos (by simp)]; exact ih

/-- Two digits a byte (R173). -/
theorem length_textToHex (text : List Char) : (textToHex text).length = 2 * (utf8Encode text).length := by
  unfold textToHex
  induction utf8Encode text with
  | nil => rfl
  | cons b bs ih =>
    simp only [List.flatMap_cons, List.length_append, ih, hexOfByte, List.length_cons, List.length_nil]
    omega

/-- A character other than NUL has a last byte other than zero. -/
theorem utf8EncodeChar_last (ch : Char) (h : ch.toNat ≠ 0) : ∃ a b, utf8EncodeChar ch = a ++ [b] ∧ b ≠ 0 := by
  have ht : ∀ n, n < 256 → n ≠ 0 → BitVec.ofNat 8 n ≠ (0 : BitVec 8) := by
    intro n h1 h2 e
    have := congrArg BitVec.toNat e
    simp at this
    omega
  unfold utf8EncodeChar
  simp only
  split
  · exact ⟨[], _, rfl, ht _ (by omega) (by omega)⟩
  · split
    · exact ⟨[_], _, rfl, ht _ (by omega) (by omega)⟩
    · split
      · exact ⟨[_, _], _, rfl, ht _ (by omega) (by omega)⟩
      · exact ⟨[_, _, _], _, rfl, ht _ (by omega) (by omega)⟩

/-- Stripping zero bytes strips exactly the trailing NUL characters (R182). -/
theorem stripNul_utf8Encode (text : List Char) : stripNul (utf8Encode text) = utf8Encode (stripNulText text) := by
  induction text using List.reverseRecOn with
  | nil => rfl
  | append_singleton init ch ih =>
    have he : utf8Encode (init ++ [ch]) = utf8Encode init ++ utf8EncodeChar ch := by simp [utf8Encode]
    by_cases h : ch.toNat = 0
    · have hc : utf8EncodeChar ch = List.replicate 1 0 := by simp [utf8EncodeChar, h]
      rw [he, hc, stripNul_append_zeros, ih]
      congr 1
      simp [stripNulText, h]
    · obtain ⟨a, b, hab, hb⟩ := utf8EncodeChar_last ch h
      have h1 : stripNulText (init ++ [ch]) = init ++ [ch] := by simp [stripNulText, h]
      rw [h1, he, hab]
      simpa [stripNul] using hb

end Sys2Proof.Machine
end

