-- ==== Sys2Proof/Laws/Encoding.lean ====
section
/-! SUPPORT. The fields of an encoded command, and a word rebuilt from its fields (30_encoding.md R70). -/

namespace Sys2Proof

theorem extract_append_left {a b : Nat} (x : BitVec a) (y : BitVec b) (start len : Nat) (h : b ≤ start) :
    (x ++ y).extractLsb' start len = x.extractLsb' (start - b) len := by
  apply BitVec.eq_of_getLsbD_eq
  intro i hi
  have h1 : ¬ start + i < b := by omega
  have h2 : start + i - b = start - b + i := by omega
  simp [BitVec.getLsbD_append, hi, h1, h2]

theorem extract_append_right {a b : Nat} (x : BitVec a) (y : BitVec b) (start len : Nat) (h : start + len ≤ b) :
    (x ++ y).extractLsb' start len = y.extractLsb' start len := by
  apply BitVec.eq_of_getLsbD_eq
  intro i hi
  have h1 : start + i < b := by omega
  simp [BitVec.getLsbD_append, hi, h1]

theorem extract_all {a : Nat} (x : BitVec a) : x.extractLsb' 0 a = x := by
  apply BitVec.eq_of_getLsbD_eq
  intro i hi
  simp [hi]

/-- The three fields of `op ‖ dlen ‖ data`. -/
theorem fields_of_append (a : BitVec 3) (b : BitVec 8) (c : BitVec 64) :
    opField (a ++ b ++ c) = a ∧ dlenField (a ++ b ++ c) = b ∧ dataField (a ++ b ++ c) = c := by
  refine ⟨?_, ?_, ?_⟩
  · show (a ++ b ++ c).extractLsb' 72 3 = a
    rw [extract_append_left _ _ _ _ (by decide), extract_append_left _ _ _ _ (by decide)]
    exact extract_all a
  · show (a ++ b ++ c).extractLsb' 64 8 = b
    rw [extract_append_left _ _ _ _ (by decide), extract_append_right _ _ _ _ (by decide)]
    exact extract_all b
  · show (a ++ b ++ c).extractLsb' 0 64 = c
    rw [extract_append_right _ _ _ _ (by decide)]
    exact extract_all c

/-- A word is its three fields side by side (R70). -/
theorem append_of_fields (w : CommandWord) : opField w ++ dlenField w ++ dataField w = w := by
  apply BitVec.eq_of_getLsbD_eq
  intro i hi
  show BitVec.getLsbD (w.extractLsb' 72 3 ++ w.extractLsb' 64 8 ++ w.extractLsb' 0 64) i = _
  simp only [BitVec.getLsbD_append, BitVec.getLsbD_extractLsb']
  by_cases h1 : i < 64
  · simp [h1]
  · by_cases h2 : i - 64 < 8
    · simp [h1, h2]; congr 1; omega
    · have h3 : i - 64 - 8 < 3 := by omega
      simp [h1, h2, h3]; congr 1; omega

end Sys2Proof
end

