-- ==== Sys2Proof/Laws/State.lean ====
section
/-! SUPPORT. What each state update does to each field: one lemma per field per update, true by unfolding. -/

namespace Sys2Proof.Machine

@[simp] theorem respond_key (s : State) (st : Status) (x : Option Word64) : (respond s st x).key = s.key := rfl
@[simp] theorem respond_c (s : State) (st : Status) (x : Option Word64) : (respond s st x).c = s.c := rfl
@[simp] theorem respond_d (s : State) (st : Status) (x : Option Word64) : (respond s st x).d = s.d := rfl
@[simp] theorem respond_rk (s : State) (st : Status) (x : Option Word64) : (respond s st x).rk = s.rk := rfl
@[simp] theorem respond_kvalid (s : State) (st : Status) (x : Option Word64) :
    (respond s st x).kvalid = s.kvalid := rfl
@[simp] theorem respond_l (s : State) (st : Status) (x : Option Word64) : (respond s st x).l = s.l := rfl
@[simp] theorem respond_r (s : State) (st : Status) (x : Option Word64) : (respond s st x).r = s.r := rfl
@[simp] theorem respond_rnd (s : State) (st : Status) (x : Option Word64) : (respond s st x).rnd = s.rnd := rfl
@[simp] theorem respond_dir (s : State) (st : Status) (x : Option Word64) : (respond s st x).dir = s.dir := rfl
@[simp] theorem respond_phase (s : State) (st : Status) (x : Option Word64) :
    (respond s st x).phase = s.phase := rfl
@[simp] theorem respond_elog (s : State) (st : Status) (x : Option Word64) : (respond s st x).elog = s.elog := rfl
@[simp] theorem respond_resp (s : State) (st : Status) (x : Option Word64) :
    (respond s st x).resp = s.resp ++ [mkResponse st x] := rfl
@[simp] theorem respond_host (s : State) (st : Status) (x : Option Word64) : (respond s st x).host = s.host := rfl

@[simp] theorem writeRk_key (s : State) (i : Fin 16) (v : Word48) : (writeRk s i v).key = s.key := rfl
@[simp] theorem writeRk_c (s : State) (i : Fin 16) (v : Word48) : (writeRk s i v).c = s.c := rfl
@[simp] theorem writeRk_d (s : State) (i : Fin 16) (v : Word48) : (writeRk s i v).d = s.d := rfl
@[simp] theorem writeRk_rk (s : State) (i : Fin 16) (v : Word48) : (writeRk s i v).rk = s.rk.set i (some v) := rfl
@[simp] theorem writeRk_kvalid (s : State) (i : Fin 16) (v : Word48) : (writeRk s i v).kvalid = s.kvalid := rfl
@[simp] theorem writeRk_l (s : State) (i : Fin 16) (v : Word48) : (writeRk s i v).l = s.l := rfl
@[simp] theorem writeRk_r (s : State) (i : Fin 16) (v : Word48) : (writeRk s i v).r = s.r := rfl
@[simp] theorem writeRk_rnd (s : State) (i : Fin 16) (v : Word48) : (writeRk s i v).rnd = s.rnd := rfl
@[simp] theorem writeRk_dir (s : State) (i : Fin 16) (v : Word48) : (writeRk s i v).dir = s.dir := rfl
@[simp] theorem writeRk_phase (s : State) (i : Fin 16) (v : Word48) : (writeRk s i v).phase = s.phase := rfl
@[simp] theorem writeRk_elog (s : State) (i : Fin 16) (v : Word48) : (writeRk s i v).elog = s.elog := rfl
@[simp] theorem writeRk_resp (s : State) (i : Fin 16) (v : Word48) : (writeRk s i v).resp = s.resp := rfl
@[simp] theorem writeRk_host (s : State) (i : Fin 16) (v : Word48) : (writeRk s i v).host = s.host := rfl

@[simp] theorem forgetData_key (s : State) : (forgetData s).key = none := rfl
@[simp] theorem forgetData_c (s : State) : (forgetData s).c = none := rfl
@[simp] theorem forgetData_d (s : State) : (forgetData s).d = none := rfl
@[simp] theorem forgetData_rk (s : State) : (forgetData s).rk = Vector.replicate 16 none := rfl
@[simp] theorem forgetData_kvalid (s : State) : (forgetData s).kvalid = s.kvalid := rfl
@[simp] theorem forgetData_l (s : State) : (forgetData s).l = none := rfl
@[simp] theorem forgetData_r (s : State) : (forgetData s).r = none := rfl
@[simp] theorem forgetData_rnd (s : State) : (forgetData s).rnd = s.rnd := rfl
@[simp] theorem forgetData_dir (s : State) : (forgetData s).dir = none := rfl
@[simp] theorem forgetData_phase (s : State) : (forgetData s).phase = s.phase := rfl
@[simp] theorem forgetData_elog (s : State) : (forgetData s).elog = s.elog := rfl
@[simp] theorem forgetData_resp (s : State) : (forgetData s).resp = s.resp := rfl
@[simp] theorem forgetData_host (s : State) : (forgetData s).host = s.host := rfl

@[simp] theorem nextDrive_key (s : State) : (nextDrive s).key = s.key := rfl
@[simp] theorem nextDrive_c (s : State) : (nextDrive s).c = s.c := rfl
@[simp] theorem nextDrive_d (s : State) : (nextDrive s).d = s.d := rfl
@[simp] theorem nextDrive_rk (s : State) : (nextDrive s).rk = s.rk := rfl
@[simp] theorem nextDrive_kvalid (s : State) : (nextDrive s).kvalid = s.kvalid := rfl
@[simp] theorem nextDrive_l (s : State) : (nextDrive s).l = s.l := rfl
@[simp] theorem nextDrive_r (s : State) : (nextDrive s).r = s.r := rfl
@[simp] theorem nextDrive_rnd (s : State) : (nextDrive s).rnd = s.rnd := rfl
@[simp] theorem nextDrive_dir (s : State) : (nextDrive s).dir = s.dir := rfl
@[simp] theorem nextDrive_phase (s : State) : (nextDrive s).phase = s.phase := rfl
@[simp] theorem nextDrive_elog (s : State) : (nextDrive s).elog = s.elog := rfl
@[simp] theorem nextDrive_resp (s : State) : (nextDrive s).resp = s.resp := rfl
@[simp] theorem nextDrive_host (s : State) : (nextDrive s).host = s.host.tail := rfl

@[simp] theorem startKeySchedule_key (x : Word64) (s : State) : (startKeySchedule x s).key = some x := rfl
@[simp] theorem startKeySchedule_c (x : Word64) (s : State) :
    (startKeySchedule x s).c = some (leftKeyHalf (permute Rom.pc1 x)) := rfl
@[simp] theorem startKeySchedule_d (x : Word64) (s : State) :
    (startKeySchedule x s).d = some (rightKeyHalf (permute Rom.pc1 x)) := rfl
@[simp] theorem startKeySchedule_rk (x : Word64) (s : State) : (startKeySchedule x s).rk = s.rk := rfl
@[simp] theorem startKeySchedule_kvalid (x : Word64) (s : State) : (startKeySchedule x s).kvalid = s.kvalid := rfl
@[simp] theorem startKeySchedule_l (x : Word64) (s : State) : (startKeySchedule x s).l = s.l := rfl
@[simp] theorem startKeySchedule_r (x : Word64) (s : State) : (startKeySchedule x s).r = s.r := rfl
@[simp] theorem startKeySchedule_rnd (x : Word64) (s : State) : (startKeySchedule x s).rnd = 0 := rfl
@[simp] theorem startKeySchedule_dir (x : Word64) (s : State) : (startKeySchedule x s).dir = s.dir := rfl
@[simp] theorem startKeySchedule_phase (x : Word64) (s : State) : (startKeySchedule x s).phase = .ks := rfl
@[simp] theorem startKeySchedule_elog (x : Word64) (s : State) : (startKeySchedule x s).elog = s.elog := rfl
@[simp] theorem startKeySchedule_resp (x : Word64) (s : State) : (startKeySchedule x s).resp = s.resp := rfl
@[simp] theorem startKeySchedule_host (x : Word64) (s : State) : (startKeySchedule x s).host = s.host := rfl

@[simp] theorem startBlock_key (dir : Dir) (x : Word64) (s : State) : (startBlock dir x s).key = s.key := rfl
@[simp] theorem startBlock_c (dir : Dir) (x : Word64) (s : State) : (startBlock dir x s).c = s.c := rfl
@[simp] theorem startBlock_d (dir : Dir) (x : Word64) (s : State) : (startBlock dir x s).d = s.d := rfl
@[simp] theorem startBlock_rk (dir : Dir) (x : Word64) (s : State) : (startBlock dir x s).rk = s.rk := rfl
@[simp] theorem startBlock_kvalid (dir : Dir) (x : Word64) (s : State) :
    (startBlock dir x s).kvalid = s.kvalid := rfl
@[simp] theorem startBlock_l (dir : Dir) (x : Word64) (s : State) :
    (startBlock dir x s).l = some (leftHalf (permute Rom.ip x)) := rfl
@[simp] theorem startBlock_r (dir : Dir) (x : Word64) (s : State) :
    (startBlock dir x s).r = some (rightHalf (permute Rom.ip x)) := rfl
@[simp] theorem startBlock_rnd (dir : Dir) (x : Word64) (s : State) : (startBlock dir x s).rnd = 0 := rfl
@[simp] theorem startBlock_dir (dir : Dir) (x : Word64) (s : State) : (startBlock dir x s).dir = some dir := rfl
@[simp] theorem startBlock_phase (dir : Dir) (x : Word64) (s : State) : (startBlock dir x s).phase = .blk := rfl
@[simp] theorem startBlock_elog (dir : Dir) (x : Word64) (s : State) : (startBlock dir x s).elog = s.elog := rfl
@[simp] theorem startBlock_resp (dir : Dir) (x : Word64) (s : State) : (startBlock dir x s).resp = s.resp := rfl
@[simp] theorem startBlock_host (dir : Dir) (x : Word64) (s : State) : (startBlock dir x s).host = s.host := rfl

@[simp] theorem resetBy_key (s : State) : (resetBy s).key = none := rfl
@[simp] theorem resetBy_c (s : State) : (resetBy s).c = none := rfl
@[simp] theorem resetBy_d (s : State) : (resetBy s).d = none := rfl
@[simp] theorem resetBy_rk (s : State) : (resetBy s).rk = Vector.replicate 16 none := rfl
@[simp] theorem resetBy_kvalid (s : State) : (resetBy s).kvalid = false := rfl
@[simp] theorem resetBy_l (s : State) : (resetBy s).l = none := rfl
@[simp] theorem resetBy_r (s : State) : (resetBy s).r = none := rfl
@[simp] theorem resetBy_rnd (s : State) : (resetBy s).rnd = 0 := rfl
@[simp] theorem resetBy_dir (s : State) : (resetBy s).dir = none := rfl
@[simp] theorem resetBy_phase (s : State) : (resetBy s).phase = .idle := rfl
@[simp] theorem resetBy_elog (s : State) : (resetBy s).elog = 0 := rfl
@[simp] theorem resetBy_resp (s : State) : (resetBy s).resp = [] := rfl
@[simp] theorem resetBy_host (s : State) : (resetBy s).host = s.host.tail := rfl

@[simp] theorem refusedState_key (e : ErrorName) (s : State) : (refusedState e s).key = s.key := rfl
@[simp] theorem refusedState_c (e : ErrorName) (s : State) : (refusedState e s).c = s.c := rfl
@[simp] theorem refusedState_d (e : ErrorName) (s : State) : (refusedState e s).d = s.d := rfl
@[simp] theorem refusedState_rk (e : ErrorName) (s : State) : (refusedState e s).rk = s.rk := rfl
@[simp] theorem refusedState_kvalid (e : ErrorName) (s : State) : (refusedState e s).kvalid = s.kvalid := rfl
@[simp] theorem refusedState_l (e : ErrorName) (s : State) : (refusedState e s).l = s.l := rfl
@[simp] theorem refusedState_r (e : ErrorName) (s : State) : (refusedState e s).r = s.r := rfl
@[simp] theorem refusedState_rnd (e : ErrorName) (s : State) : (refusedState e s).rnd = s.rnd := rfl
@[simp] theorem refusedState_dir (e : ErrorName) (s : State) : (refusedState e s).dir = s.dir := rfl
@[simp] theorem refusedState_phase (e : ErrorName) (s : State) : (refusedState e s).phase = s.phase := rfl
@[simp] theorem refusedState_elog (e : ErrorName) (s : State) :
    (refusedState e s).elog = s.elog ||| (1#8 <<< e.code) := rfl
@[simp] theorem refusedState_resp (e : ErrorName) (s : State) :
    (refusedState e s).resp = s.resp ++ [{ status := .error e, hasData := false, data := 0 }] := rfl
@[simp] theorem refusedState_host (e : ErrorName) (s : State) : (refusedState e s).host = s.host := rfl

@[simp] theorem afterNoAccept_key (s : State) : (afterNoAccept s).key = s.key := by
  unfold afterNoAccept; split <;> rfl
@[simp] theorem afterNoAccept_c (s : State) : (afterNoAccept s).c = s.c := by
  unfold afterNoAccept; split <;> rfl
@[simp] theorem afterNoAccept_d (s : State) : (afterNoAccept s).d = s.d := by
  unfold afterNoAccept; split <;> rfl
@[simp] theorem afterNoAccept_rk (s : State) : (afterNoAccept s).rk = s.rk := by
  unfold afterNoAccept; split <;> rfl
@[simp] theorem afterNoAccept_kvalid (s : State) : (afterNoAccept s).kvalid = s.kvalid := by
  unfold afterNoAccept; split <;> rfl
@[simp] theorem afterNoAccept_l (s : State) : (afterNoAccept s).l = s.l := by
  unfold afterNoAccept; split <;> rfl
@[simp] theorem afterNoAccept_r (s : State) : (afterNoAccept s).r = s.r := by
  unfold afterNoAccept; split <;> rfl
@[simp] theorem afterNoAccept_rnd (s : State) : (afterNoAccept s).rnd = s.rnd := by
  unfold afterNoAccept; split <;> rfl
@[simp] theorem afterNoAccept_dir (s : State) : (afterNoAccept s).dir = s.dir := by
  unfold afterNoAccept; split <;> rfl
@[simp] theorem afterNoAccept_phase (s : State) : (afterNoAccept s).phase = s.phase := by
  unfold afterNoAccept; split <;> rfl
@[simp] theorem afterNoAccept_elog (s : State) : (afterNoAccept s).elog = s.elog := by
  unfold afterNoAccept; split <;> rfl
@[simp] theorem afterNoAccept_resp (s : State) : (afterNoAccept s).resp = s.resp := by
  unfold afterNoAccept; split <;> rfl

end Sys2Proof.Machine
end

