-- ==== Sys2Proof/Laws/Ops.lean ====
section
/-! SUPPORT. What each shared operation can do, said once: reading a register, `raise`, and the accept micro-step
of each command. -/

namespace Sys2Proof.Machine

@[simp] theorem withReg_some {α : Type} (name : RegName) (x : α) (go : α → StepResult) :
    withReg name (some x) go = go x := rfl

/-- A read that goes on found a value. -/
theorem withReg_next {α : Type} {name : RegName} {v : Option α} {go : α → StepResult} {t : State}
    (h : withReg name v go = .next t) : ∃ x, v = some x ∧ go x = .next t := by
  cases v with
  | none => cases h
  | some x => exact ⟨x, rfl, h⟩

theorem raise_eq (e : ErrorName) (s : State) : raise e s = .next (refusedState e s) := rfl

theorem operandOk_iff (n : BitVec 8) : operandOk n = true ↔ n = 64#8 := by simp [operandOk]

/-- LOADKEY's three outcomes (R80). -/
theorem execLoadkey_eq (n : BitVec 8) (x : Word64) (s : State) :
    execLoadkey n x s =
      if n ≠ 64#8 then .next (refusedState .invalidKeyLength s)
      else if s.kvalid = true then .next (refusedState .keyLocked s) else .next (startKeySchedule x s) := by
  unfold execLoadkey
  by_cases h : n = 64#8 <;> simp [operandOk, h, raise_eq]

/-- The three outcomes of ENC and DEC (R80). -/
theorem acceptBlock_eq (dir : Dir) (n : BitVec 8) (x : Word64) (s : State) :
    acceptBlock dir n x s =
      if n ≠ 64#8 then .next (refusedState .lengthMismatch s)
      else if s.kvalid = false then .next (refusedState .keyNotReady s) else .next (startBlock dir x s) := by
  unfold acceptBlock
  by_cases h : n = 64#8 <;> simp [operandOk, h, raise_eq]

theorem execLoadkey_badLength {n : BitVec 8} (x : Word64) (s : State) (h : n ≠ 64) :
    execLoadkey n x s = .next (refusedState .invalidKeyLength s) := by
  rw [execLoadkey_eq, if_pos (show n ≠ 64#8 from h)]

theorem execLoadkey_locked (x : Word64) {s : State} (h : s.kvalid = true) :
    execLoadkey 64 x s = .next (refusedState .keyLocked s) := by
  rw [execLoadkey_eq, if_neg (by decide), if_pos h]

theorem execLoadkey_start (x : Word64) {s : State} (h : s.kvalid = false) :
    execLoadkey 64 x s = .next (startKeySchedule x s) := by
  rw [execLoadkey_eq, if_neg (by decide), if_neg (by simp [h])]

theorem acceptBlock_badLength (dir : Dir) {n : BitVec 8} (x : Word64) (s : State) (h : n ≠ 64) :
    acceptBlock dir n x s = .next (refusedState .lengthMismatch s) := by
  rw [acceptBlock_eq, if_pos (show n ≠ 64#8 from h)]

theorem acceptBlock_notReady (dir : Dir) (x : Word64) {s : State} (h : s.kvalid = false) :
    acceptBlock dir 64 x s = .next (refusedState .keyNotReady s) := by
  rw [acceptBlock_eq, if_neg (by decide), if_pos h]

theorem acceptBlock_start (dir : Dir) (x : Word64) {s : State} (h : s.kvalid = true) :
    acceptBlock dir 64 x s = .next (startBlock dir x s) := by
  rw [acceptBlock_eq, if_neg (by decide), if_neg (by simp [h])]

/-- What CLEAR leaves (R162). -/
def clearedState (s : State) : State :=
  { State.reset with resp := s.resp ++ [doneResponse], host := s.host }

theorem execClear_eq (s : State) : execClear s = .next (clearedState s) := rfl

theorem execNop_eq (s : State) : execNop s = .next { s with resp := s.resp ++ [doneResponse] } := rfl

/-- Everything the accept micro-step of a command can do (R80): answer, clear, refuse with one of the block's
errors, start a key schedule, or start a block. -/
theorem exec_cases {i : Instr} {s t : State} (h : exec i s = .next t) :
    (i.op = 0 ∧ t = { s with resp := s.resp ++ [doneResponse] }) ∨
    (i.op = 4 ∧ t = clearedState s) ∨
    (i.op ≠ 4 ∧ ∃ e : ErrorName, e.raisedByBlock = true ∧ t = refusedState e s) ∨
    (i.op = 1 ∧ i.dlen = 64 ∧ s.kvalid = false ∧ t = startKeySchedule i.data s) ∨
    (∃ dir, i.op = (if dir = .encrypt then 2 else 3) ∧ i.dlen = 64 ∧ s.kvalid = true ∧
      t = startBlock dir i.data s) := by
  cases i with
  | nop n x => cases h; exact .inl ⟨rfl, rfl⟩
  | clear n x => cases h; exact .inr (.inl ⟨rfl, rfl⟩)
  | reserved5 n x => cases h; exact .inr (.inr (.inl ⟨by simp [Instr.op], .illegalCommand, rfl, rfl⟩))
  | reserved6 n x => cases h; exact .inr (.inr (.inl ⟨by simp [Instr.op], .illegalCommand, rfl, rfl⟩))
  | reserved7 n x => cases h; exact .inr (.inr (.inl ⟨by simp [Instr.op], .illegalCommand, rfl, rfl⟩))
  | loadkey n x =>
    rw [exec, execLoadkey_eq] at h
    split at h
    · cases h; exact .inr (.inr (.inl ⟨by simp [Instr.op], .invalidKeyLength, rfl, rfl⟩))
    · split at h
      · cases h; exact .inr (.inr (.inl ⟨by simp [Instr.op], .keyLocked, rfl, rfl⟩))
      · cases h
        exact .inr (.inr (.inr (.inl ⟨rfl, by simpa [Instr.dlen] using ‹¬n ≠ 64#8›, by simpa using ‹¬s.kvalid = true›, rfl⟩)))
  | enc n x =>
    rw [exec, execEnc, acceptBlock_eq] at h
    split at h
    · cases h; exact .inr (.inr (.inl ⟨by simp [Instr.op], .lengthMismatch, rfl, rfl⟩))
    · split at h
      · cases h; exact .inr (.inr (.inl ⟨by simp [Instr.op], .keyNotReady, rfl, rfl⟩))
      · cases h
        exact .inr (.inr (.inr (.inr ⟨.encrypt, rfl, by simpa [Instr.dlen] using ‹¬n ≠ 64#8›, by simpa using ‹¬s.kvalid = false›, rfl⟩)))
  | dec n x =>
    rw [exec, execDec, acceptBlock_eq] at h
    split at h
    · cases h; exact .inr (.inr (.inl ⟨by simp [Instr.op], .lengthMismatch, rfl, rfl⟩))
    · split at h
      · cases h; exact .inr (.inr (.inl ⟨by simp [Instr.op], .keyNotReady, rfl, rfl⟩))
      · cases h
        exact .inr (.inr (.inr (.inr ⟨.decrypt, rfl, by simpa [Instr.dlen] using ‹¬n ≠ 64#8›, by simpa using ‹¬s.kvalid = false›, rfl⟩)))

/-- The accept micro-step always has a next state (R211 c). -/
theorem exec_next (i : Instr) (s : State) : ∃ t, exec i s = .next t := by
  cases i with
  | nop n x => exact ⟨_, rfl⟩
  | clear n x => exact ⟨_, rfl⟩
  | reserved5 n x => exact ⟨_, rfl⟩
  | reserved6 n x => exact ⟨_, rfl⟩
  | reserved7 n x => exact ⟨_, rfl⟩
  | loadkey n x => rw [exec, execLoadkey_eq]; split; · exact ⟨_, rfl⟩
                   split <;> exact ⟨_, rfl⟩
  | enc n x => rw [exec, execEnc, acceptBlock_eq]; split; · exact ⟨_, rfl⟩
               split <;> exact ⟨_, rfl⟩
  | dec n x => rw [exec, execDec, acceptBlock_eq]; split; · exact ⟨_, rfl⟩
               split <;> exact ⟨_, rfl⟩

end Sys2Proof.Machine
end

