-- ==== Sys2Proof/Laws/Step.lean ====
section
/-! SUPPORT. What one step can do, said once (10_state.md R40), and runs of several steps. -/

namespace Sys2Proof.Machine

/-- The three kinds of step besides the core's own micro-steps. -/
theorem step_rst {s : State} (h : rstAsserted s = true) : step s = .next (resetBy s) := by
  simp [step, microStep, h]

theorem step_wait {s : State} (h : rstAsserted s = false) (hp : s.phase = .idle) (ho : offered s = none) :
    step s = .next (afterNoAccept s) := by
  simp [step, microStep, h, hp, ho]

theorem step_accept {s : State} {w : CommandWord} (h : rstAsserted s = false) (hp : s.phase = .idle)
    (ho : offered s = some w) : step s = exec (decode w) (nextDrive s) := by
  simp [step, microStep, h, hp, ho]

theorem step_busy {s : State} (h : rstAsserted s = false) (hp : s.phase ≠ .idle) :
    step s = coreMicroStep (afterNoAccept s) := by
  unfold step microStep
  rw [if_neg (by simp [h])]
  cases hq : s.phase <;> simp_all

/-- A key-schedule round micro-step that goes on (R113). -/
theorem ksRound_next {s t : State} (h : ksRound s = .next t) :
    ∃ (hr : s.rnd.toNat < 16) (c d : Word28), s.c = some c ∧ s.d = some d ∧
      t = ksRoundState s ⟨s.rnd.toNat, hr⟩ c d := by
  unfold ksRound at h
  split at h
  · rename_i hr
    obtain ⟨c, hc, h⟩ := withReg_next h
    obtain ⟨d, hd, h⟩ := withReg_next h
    cases h
    exact ⟨hr, c, d, hc, hd, rfl⟩
  · cases h

/-- A Feistel round micro-step that goes on (R134). -/
theorem feistelRound_next {s t : State} (h : feistelRound s = .next t) :
    ∃ (hr : s.rnd.toNat < 16) (l r : Word32) (dir : Dir) (k : Word48), s.l = some l ∧ s.r = some r ∧
      s.dir = some dir ∧ s.rk[roundKeyIndex dir ⟨s.rnd.toNat, hr⟩] = some k ∧
      t = feistelRoundState s ⟨s.rnd.toNat, hr⟩ l r k := by
  unfold feistelRound at h
  split at h
  · rename_i hr
    obtain ⟨l, hl, h⟩ := withReg_next h
    obtain ⟨r, hr', h⟩ := withReg_next h
    obtain ⟨dir, hd, h⟩ := withReg_next h
    obtain ⟨k, hk, h⟩ := withReg_next h
    cases h
    exact ⟨hr, l, r, dir, k, hl, hr', hd, hk, rfl⟩
  · cases h

/-- A final micro-step that goes on (R146). -/
theorem finalStep_next {s t : State} (h : finalStep s = .next t) :
    ∃ l r : Word32, s.l = some l ∧ s.r = some r ∧
      t = respond { s with phase := .idle } .ok (some (permute Rom.fp (joinBlock l r))) := by
  obtain ⟨l, hl, h⟩ := withReg_next h
  obtain ⟨r, hr, h⟩ := withReg_next h
  cases h
  exact ⟨l, r, hl, hr, rfl⟩

/-- Everything a step can do (R40). -/
theorem step_cases {s t : State} (h : step s = .next t) :
    (rstAsserted s = true ∧ t = resetBy s) ∨
    (rstAsserted s = false ∧ s.phase = .idle ∧ offered s = none ∧ t = afterNoAccept s) ∨
    (rstAsserted s = false ∧ s.phase = .idle ∧ ∃ w, offered s = some w ∧ exec (decode w) (nextDrive s) = .next t) ∨
    (rstAsserted s = false ∧ s.phase = .ks ∧ ∃ (hr : s.rnd.toNat < 16) (c d : Word28), s.c = some c ∧
      s.d = some d ∧ t = ksRoundState (afterNoAccept s) ⟨s.rnd.toNat, hr⟩ c d) ∨
    (rstAsserted s = false ∧ s.phase = .blk ∧ ∃ (hr : s.rnd.toNat < 16) (l r : Word32) (dir : Dir) (k : Word48),
      s.l = some l ∧ s.r = some r ∧ s.dir = some dir ∧ s.rk[roundKeyIndex dir ⟨s.rnd.toNat, hr⟩] = some k ∧
      t = feistelRoundState (afterNoAccept s) ⟨s.rnd.toNat, hr⟩ l r k) ∨
    (rstAsserted s = false ∧ s.phase = .fin ∧ ∃ l r : Word32, s.l = some l ∧ s.r = some r ∧
      t = respond { afterNoAccept s with phase := .idle } .ok (some (permute Rom.fp (joinBlock l r)))) := by
  cases hr : rstAsserted s with
  | true => rw [step_rst hr] at h; cases h; exact .inl ⟨rfl, rfl⟩
  | false =>
    refine .inr ?_
    cases hp : s.phase with
    | idle =>
      cases ho : offered s with
      | none => rw [step_wait hr hp ho] at h; cases h; exact .inl ⟨rfl, rfl, rfl, rfl⟩
      | some w => rw [step_accept hr hp ho] at h; exact .inr (.inl ⟨rfl, rfl, w, rfl, h⟩)
    | ks =>
      rw [step_busy hr (by simp [hp]), coreMicroStep] at h
      simp only [afterNoAccept_phase, hp] at h
      obtain ⟨h1, c, d, hc, hd, rfl⟩ := ksRound_next h
      exact .inr (.inr (.inl ⟨rfl, rfl, by simpa using h1, c, d, by simpa using hc, by simpa using hd,
        by simp only [afterNoAccept_rnd]⟩))
    | blk =>
      rw [step_busy hr (by simp [hp]), coreMicroStep] at h
      simp only [afterNoAccept_phase, hp] at h
      obtain ⟨h1, l, r, dir, k, hl, hr', hd, hk, rfl⟩ := feistelRound_next h
      exact .inr (.inr (.inr (.inl ⟨rfl, rfl, by simpa using h1, l, r, dir, k, by simpa using hl, by simpa using hr',
        by simpa using hd, by simpa using hk, by simp only [afterNoAccept_rnd]⟩)))
    | fin =>
      rw [step_busy hr (by simp [hp]), coreMicroStep] at h
      simp only [afterNoAccept_phase, hp] at h
      obtain ⟨l, r, hl, hr', rfl⟩ := finalStep_next h
      exact .inr (.inr (.inr (.inr ⟨rfl, rfl, l, r, by simpa using hl, by simpa using hr', rfl⟩)))

@[simp] theorem run_zero (s : State) : run 0 s = .next s := rfl

theorem run_succ {s t : State} (n : Nat) (h : step s = .next t) : run (n + 1) s = run n t := by simp [run, h]

/-- A run is a run and then another. -/
theorem run_add {s t : State} (m n : Nat) (h : run m s = .next t) : run (m + n) s = run n t := by
  induction m generalizing s with
  | zero => cases h; simp
  | succ m ih =>
    rw [show m + 1 + n = (m + n) + 1 by omega]
    rw [run] at h ⊢
    split at h <;> simp_all

/-- A run of one more step, split at its first step. -/
theorem run_succ_next {s t : State} {n : Nat} (h : run (n + 1) s = .next t) :
    ∃ u, step s = .next u ∧ run n u = .next t := by
  rw [run] at h
  split at h
  · exact ⟨_, ‹_›, h⟩
  · cases h
  · cases h

/-- A run agrees with the host's `Core.run`. -/
theorem run_eq_core_run (n : Nat) (s : State) : Host.Core.run Sys2Proof.core n s = run n s := by
  induction n generalizing s with
  | zero => rfl
  | succ n ih =>
    cases h : step s with
    | next t =>
      have h' : Sys2Proof.core.step s = .next t := h
      simp only [run, Host.Core.run, h, h']
      exact ih t
    | fault f =>
      have h' : Sys2Proof.core.step s = .fault f := h
      simp only [run, Host.Core.run, h, h']
      rfl
    | refused f =>
      have h' : Sys2Proof.core.step s = .refused f := h
      simp only [run, Host.Core.run, h, h']
      rfl

/-- A property of states that every step keeps holds along every run. -/
theorem run_keeps {P : State → Prop} (hstep : ∀ s t, P s → step s = .next t → P t) {n : Nat} {s t : State}
    (hs : P s) (h : run n s = .next t) : P t := by
  induction n generalizing s with
  | zero => cases h; exact hs
  | succ n ih =>
    obtain ⟨u, hu, h⟩ := run_succ_next h
    exact ih (hstep s u hs hu) h

/-- Without a drive, or with a word held, the host's drives stay while the block is busy (R222). -/
theorem afterNoAccept_of_holds {s : State} (h : holds s.host) : afterNoAccept s = s := by
  obtain h | ⟨w, rest, h⟩ := h
  · cases s; simp_all [afterNoAccept, nextDrive]
  · cases s; simp_all [afterNoAccept]

theorem rstAsserted_of_holds {s : State} (h : holds s.host) : rstAsserted s = false := by
  obtain h | ⟨w, rest, h⟩ := h <;> simp [rstAsserted, h]

end Sys2Proof.Machine
end

