-- ==== Sys2Proof/Laws/Engine.lean ====
section
/-! SUPPORT. The engine and the key schedule as functions: the rounds of `Crypt` run backwards, the schedule's
accumulated rotations, and the micro-steps of a command in flight, one after another. -/

namespace Sys2Proof.Machine

/-- The two halves exchanged. -/
def swapHalves (h : Word32 × Word32) : Word32 × Word32 := (h.2, h.1)

@[simp] theorem swapHalves_swapHalves (h : Word32 × Word32) : swapHalves (swapHalves h) = h := rfl

/-- A round with a swap, undone by the same round on the exchanged halves; nothing is used of f (R147). -/
theorem cryptRound_swap (h : Word32 × Word32) (k : Word48) :
    cryptRound (swapHalves (cryptRound h k)) k = swapHalves h := by
  simp [cryptRound, swapHalves]

/-- All the rounds, undone with the keys in reverse order on the exchanged halves (R147). -/
theorem cryptRounds_reverse (ks : List Word48) (h : Word32 × Word32) :
    cryptRounds ks.reverse (swapHalves (cryptRounds ks h)) = swapHalves h := by
  induction ks generalizing h with
  | nil => rfl
  | cons k ks ih =>
    have := ih (cryptRound h k)
    simp only [cryptRounds, List.reverse_cons, List.foldl_append, List.foldl_cons, List.foldl_nil] at this ⊢
    rw [this, cryptRound_swap]

theorem cryptRounds_append (ks ks' : List Word48) (h : Word32 × Word32) :
    cryptRounds (ks ++ ks') h = cryptRounds ks' (cryptRounds ks h) := by simp [cryptRounds]

/-- The halves of a block after the initial permutation (R131). -/
def initialHalves (x : Word64) : Word32 × Word32 := (leftHalf (permute Rom.ip x), rightHalf (permute Rom.ip x))

/-- `Crypt` as sixteen rounds with a swap and one exchange: the last round's missing swap (R141, R144). -/
theorem crypt_eq (ks : Vector Word48 16) (x : Word64) :
    crypt ks x =
      permute Rom.fp (joinBlock (swapHalves (cryptRounds ks.toList (initialHalves x))).1
        (swapHalves (cryptRounds ks.toList (initialHalves x))).2) := by
  have hk : ks.toList = ks.toList.take 15 ++ [ks[15]] := by
    conv_lhs => rw [← List.take_append_drop 15 ks.toList]
    congr 1
    apply List.ext_getElem (by simp)
    intro i h1 h2
    have : i = 0 := by simpa using h2
    subst this
    simp
  rw [hk, cryptRounds_append]
  rfl

/-- `t(n)`, the rotations of the first n key-schedule rounds together (R114). -/
def totalShift : Nat → Nat
  | 0 => 0
  | n + 1 => totalShift n + romReadShift (n + 1)

theorem pos_rotl28_rotl28 (x : Word28) (a b k : Nat) (h1 : 1 ≤ k) (h2 : k ≤ 28) :
    pos (rotl28 (rotl28 x a) b) k = pos x ((k - 1 + (a + b)) % 28 + 1) := by
  rw [pos_rotl28 _ _ _ h1 h2, pos_rotl28 _ _ _ (by omega) (by omega)]
  congr 2; omega

/-- Rotations accumulate (R114). -/
theorem rotl28_rotl28 (x : Word28) (a b : Nat) : rotl28 (rotl28 x a) b = rotl28 x (a + b) := by
  apply eq_of_pos
  intro k h1 h2
  rw [pos_rotl28_rotl28 _ _ _ _ h1 h2, pos_rotl28 _ _ _ h1 h2]

theorem rotl28_zero (x : Word28) : rotl28 x 0 = x := by
  apply eq_of_pos
  intro k h1 h2
  rw [pos_rotl28 _ _ _ h1 h2]
  congr 1; omega

/-- The halves after n rounds are those after PC1, rotated by t(n) (R114, R118). -/
theorem keyHalves_eq (key : Word64) (n : Nat) :
    keyHalves key n = (rotl28 (keyHalves key 0).1 (totalShift n), rotl28 (keyHalves key 0).2 (totalShift n)) := by
  induction n with
  | zero => simp [totalShift, rotl28_zero]
  | succ n ih =>
    show (rotl28 (keyHalves key n).1 _, rotl28 (keyHalves key n).2 _) = _
    rw [ih]
    simp only [rotl28_rotl28, totalShift]

theorem rotl28_not (x : Word28) (n : Nat) : rotl28 (~~~x) n = ~~~rotl28 x n := by
  apply eq_of_pos
  intro k h1 h2
  rw [pos_not _ _ h1 h2, pos_rotl28 _ _ _ h1 h2, pos_rotl28 _ _ _ h1 h2, pos_not _ _ (by omega) (by omega)]

@[simp] theorem getElem_keySchedule (key : Word64) (n : Nat) (h : n < 16) :
    (keySchedule key)[n] = roundKey key (n + 1) := by simp [keySchedule]

/-- One key-schedule micro-step (R113). -/
theorem step_ks {s : State} {c d : Word28} (hh : holds s.host) (hp : s.phase = .ks) (hr : s.rnd.toNat < 16)
    (hc : s.c = some c) (hd : s.d = some d) :
    step s = .next (ksRoundState s ⟨s.rnd.toNat, hr⟩ c d) := by
  rw [step_busy (rstAsserted_of_holds hh) (by simp [hp]), afterNoAccept_of_holds hh]
  simp [coreMicroStep, hp, ksRound, hr, hc, hd]

/-- One Feistel round micro-step (R134). -/
theorem step_blk {s : State} {l r : Word32} {dir : Dir} {k : Word48} (hh : holds s.host) (hp : s.phase = .blk)
    (hr : s.rnd.toNat < 16) (hl : s.l = some l) (hrr : s.r = some r) (hd : s.dir = some dir)
    (hk : s.rk[roundKeyIndex dir ⟨s.rnd.toNat, hr⟩] = some k) :
    step s = .next (feistelRoundState s ⟨s.rnd.toNat, hr⟩ l r k) := by
  rw [step_busy (rstAsserted_of_holds hh) (by simp [hp]), afterNoAccept_of_holds hh]
  simp only [coreMicroStep, hp, feistelRound, hr, dif_pos, hl, hrr, hd, readRk, withReg_some, hk]

/-- The final micro-step (R146). -/
theorem step_fin {s : State} {l r : Word32} (hh : holds s.host) (hp : s.phase = .fin) (hl : s.l = some l)
    (hr : s.r = some r) :
    step s = .next (respond { s with phase := .idle } .ok (some (permute Rom.fp (joinBlock l r)))) := by
  rw [step_busy (rstAsserted_of_holds hh) (by simp [hp]), afterNoAccept_of_holds hh]
  simp only [coreMicroStep, hp, finalStep, hl, hr, withReg_some]

/-- A run and one step more. -/
theorem run_then_step {s t u : State} {n : Nat} (h : run n s = .next t) (h' : step t = .next u) :
    run (n + 1) s = .next u := by
  rw [run_add n 1 h, run_succ 0 h', run_zero]

/-- Up to fifteen key-schedule micro-steps from the start of phase KS: the halves of the schedule, and the round
keys made so far in their entries (R113, R118). -/
theorem run_ks {s : State} {key : Word64} (hh : holds s.host) (hp : s.phase = .ks) (h0 : s.rnd = 0)
    (hc : s.c = some (keyHalves key 0).1) (hd : s.d = some (keyHalves key 0).2) (n : Nat) (hn : n ≤ 15) :
    ∃ rk : Vector (Option Word48) 16,
      run n s = .next { s with
        c := some (keyHalves key n).1, d := some (keyHalves key n).2, rk := rk, rnd := BitVec.ofNat 5 n } ∧
      ∀ i : Fin 16, rk[i] = if i.val < n then some (roundKey key (i.val + 1)) else s.rk[i] := by
  induction n with
  | zero =>
    refine ⟨s.rk, ?_, fun i => by simp⟩
    rw [run_zero, ← hc, ← hd, show BitVec.ofNat 5 0 = s.rnd from h0.symm]
  | succ n ih =>
    obtain ⟨rk, hrun, hrk⟩ := ih (by omega)
    have hnn : (BitVec.ofNat 5 n).toNat = n := by simp; omega
    have hstep := step_ks (s := { s with
      c := some (keyHalves key n).1, d := some (keyHalves key n).2, rk := rk, rnd := BitVec.ofNat 5 n })
      hh hp (by simp only [hnn]; omega) rfl rfl
    refine ⟨rk.set n (some (roundKey key (n + 1))), ?_, fun i => ?_⟩
    · rw [run_then_step hrun hstep]
      simp only [ksRoundState, hnn]
      rw [if_neg (by omega)]
      simp only [writeRk, roundKey, keyHalves, Host.Outcome.next.injEq, State.mk.injEq, true_and, and_true]
      rw [BitVec.ofNat_add]
      rfl
    · simp only [Fin.getElem_fin, Vector.getElem_set]
      by_cases h1 : n = i.val
      · simp [h1]
      · rw [if_neg h1]
        have := hrk i
        simp only [Fin.getElem_fin] at this
        rw [this]
        by_cases h2 : i.val < n
        · rw [if_pos h2, if_pos (by omega)]
        · rw [if_neg h2, if_neg (by omega)]

/-- The sixteen key-schedule micro-steps from the start of phase KS (R110, R117). -/
theorem run_ks_all {s : State} {key : Word64} (hh : holds s.host) (hp : s.phase = .ks) (h0 : s.rnd = 0)
    (hc : s.c = some (keyHalves key 0).1) (hd : s.d = some (keyHalves key 0).2) :
    run 16 s = .next { s with
      c := some (keyHalves key 16).1, d := some (keyHalves key 16).2, rk := (keySchedule key).map some, rnd := 16
      kvalid := true, phase := .idle, resp := s.resp ++ [doneResponse] } := by
  obtain ⟨rk, hrun, hrk⟩ := run_ks hh hp h0 hc hd 15 (by omega)
  have hstep := step_ks (s := { s with
    c := some (keyHalves key 15).1, d := some (keyHalves key 15).2, rk := rk, rnd := BitVec.ofNat 5 15 })
    hh hp (show (BitVec.ofNat 5 15).toNat < 16 by decide) rfl rfl
  rw [run_then_step hrun hstep]
  have hset : rk.set 15 (some (roundKey key 16)) = (keySchedule key).map some := by
    apply Vector.ext
    intro i hi
    have := hrk ⟨i, hi⟩
    simp only [Fin.getElem_fin] at this
    simp only [Vector.getElem_set, Vector.getElem_map, getElem_keySchedule]
    by_cases h1 : 15 = i
    · simp [← h1]
    · rw [if_neg h1, this, if_pos (by omega)]
  rw [← hset]
  rfl

/-- Up to fifteen Feistel round micro-steps from the start of phase BLK (R134, R144). -/
theorem run_blk {s : State} {ks : Vector Word48 16} {dir : Dir} {h : Word32 × Word32} (hh : holds s.host)
    (hp : s.phase = .blk) (h0 : s.rnd = 0) (hl : s.l = some h.1) (hr : s.r = some h.2) (hd : s.dir = some dir)
    (hk : s.rk = ks.map some) (n : Nat) (hn : n ≤ 15) :
    run n s = .next { s with
      l := some (cryptRounds ((keysFor dir ks).toList.take n) h).1
      r := some (cryptRounds ((keysFor dir ks).toList.take n) h).2
      rnd := BitVec.ofNat 5 n } := by
  induction n with
  | zero =>
    rw [run_zero, List.take_zero]
    show _ = Host.Outcome.next { s with l := some h.1, r := some h.2, rnd := 0 }
    rw [← hl, ← hr, ← h0]
  | succ n ih =>
    have hnn : (BitVec.ofNat 5 n).toNat = n := by simp; omega
    have hkey : ks[roundKeyIndex dir ⟨n, by omega⟩] = (keysFor dir ks)[n] := by
      cases dir
      · rfl
      · simp [roundKeyIndex, keysFor]
    have hstep := step_blk (s := { s with
      l := some (cryptRounds ((keysFor dir ks).toList.take n) h).1
      r := some (cryptRounds ((keysFor dir ks).toList.take n) h).2
      rnd := BitVec.ofNat 5 n }) (dir := dir) (k := (keysFor dir ks)[n])
      hh hp (by simp only [hnn]; omega) rfl rfl hd (by simp only [hk, hnn, ← hkey]; simp)
    rw [run_then_step (ih (by omega)) hstep]
    have htake : (keysFor dir ks).toList.take (n + 1) = (keysFor dir ks).toList.take n ++ [(keysFor dir ks)[n]] := by
      rw [List.take_succ_eq_append_getElem (by simp; omega)]
      simp
    simp only [feistelRoundState, hnn]
    rw [if_pos (by omega), htake, cryptRounds_append]
    simp only [cryptRounds, List.foldl_cons, List.foldl_nil, cryptRound, Host.Outcome.next.injEq, State.mk.injEq,
      true_and, and_true, Option.some.injEq]
    refine ⟨BitVec.xor_comm _ _, ?_⟩
    rw [BitVec.ofNat_add]
    rfl

/-- The sixteen rounds and the final micro-step from the start of phase BLK: the response is `Crypt` of the keys in
the direction's order (R144, R146). -/
theorem run_blk_all {s : State} {ks : Vector Word48 16} {dir : Dir} {x : Word64} (hh : holds s.host)
    (hp : s.phase = .blk) (h0 : s.rnd = 0) (hl : s.l = some (initialHalves x).1) (hr : s.r = some (initialHalves x).2)
    (hd : s.dir = some dir) (hk : s.rk = ks.map some) :
    ∃ l r, run 17 s = .next { s with
      l := some l, r := some r, rnd := 16, phase := .idle
      resp := s.resp ++ [{ status := .ok, hasData := true, data := crypt (keysFor dir ks) x }] } := by
  have hrun := run_blk hh hp h0 hl hr hd hk 15 (by omega)
  have hkey : ks[roundKeyIndex dir 15] = (keysFor dir ks)[15] := by
    cases dir
    · rfl
    · simp [roundKeyIndex, keysFor]
  have hstep := step_blk (s := { s with
    l := some (cryptRounds ((keysFor dir ks).toList.take 15) (initialHalves x)).1
    r := some (cryptRounds ((keysFor dir ks).toList.take 15) (initialHalves x)).2
    rnd := BitVec.ofNat 5 15 }) (dir := dir) (k := (keysFor dir ks)[15])
    hh hp (show (BitVec.ofNat 5 15).toNat < 16 by decide) rfl rfl hd (by rw [← hkey]; simp only [hk]; simp)
  have h16 := run_then_step hrun hstep
  have hfin := step_fin (s := feistelRoundState { s with
    l := some (cryptRounds ((keysFor dir ks).toList.take 15) (initialHalves x)).1
    r := some (cryptRounds ((keysFor dir ks).toList.take 15) (initialHalves x)).2
    rnd := BitVec.ofNat 5 15 } 15 (cryptRounds ((keysFor dir ks).toList.take 15) (initialHalves x)).1
    (cryptRounds ((keysFor dir ks).toList.take 15) (initialHalves x)).2 (keysFor dir ks)[15]) hh rfl rfl rfl
  refine ⟨feistelF (cryptRounds ((keysFor dir ks).toList.take 15) (initialHalves x)).2 (keysFor dir ks)[15] ^^^
      (cryptRounds ((keysFor dir ks).toList.take 15) (initialHalves x)).1,
    (cryptRounds ((keysFor dir ks).toList.take 15) (initialHalves x)).2, (run_then_step h16 hfin).trans ?_⟩
  have hx : crypt (keysFor dir ks) x =
      permute Rom.fp (joinBlock
        (feistelF (cryptRounds ((keysFor dir ks).toList.take 15) (initialHalves x)).2 (keysFor dir ks)[15] ^^^
          (cryptRounds ((keysFor dir ks).toList.take 15) (initialHalves x)).1)
        (cryptRounds ((keysFor dir ks).toList.take 15) (initialHalves x)).2) := by
    rw [BitVec.xor_comm]
    rfl
  rw [hx]
  rfl

end Sys2Proof.Machine
end

