-- ==== Sys2Proof/Laws/PerInstr.lean ====
section
/-! SUPPORT. The per-instruction family `EncodeFields`: the word a command encodes to carries its opcode, its
declared length and its operand in the fields of R70. -/

namespace Sys2Proof.Laws.EncodeFields

/-- The fields of the encoded command are the command's. -/
def Statement (i : Instr) : Prop :=
  opField (encode i) = i.op ∧ dlenField (encode i) = i.dlen ∧ dataField (encode i) = i.data

theorem nop (dlen : BitVec 8) (data : Word64) : Statement (.nop dlen data) := fields_of_append _ _ _
theorem loadkey (dlen : BitVec 8) (data : Word64) : Statement (.loadkey dlen data) := fields_of_append _ _ _
theorem enc (dlen : BitVec 8) (data : Word64) : Statement (.enc dlen data) := fields_of_append _ _ _
theorem dec (dlen : BitVec 8) (data : Word64) : Statement (.dec dlen data) := fields_of_append _ _ _
theorem clear (dlen : BitVec 8) (data : Word64) : Statement (.clear dlen data) := fields_of_append _ _ _
theorem reserved5 (dlen : BitVec 8) (data : Word64) : Statement (.reserved5 dlen data) := fields_of_append _ _ _
theorem reserved6 (dlen : BitVec 8) (data : Word64) : Statement (.reserved6 dlen data) := fields_of_append _ _ _
theorem reserved7 (dlen : BitVec 8) (data : Word64) : Statement (.reserved7 dlen data) := fields_of_append _ _ _

end Sys2Proof.Laws.EncodeFields
end

