-- ==== Sys2Proof/Tests/Slice0.lean ====
section
/-! SUPPORT. The model's own tests. Expected values are the spec's: 95_test_vectors.md where a section is named, or
the rule named. After them, for every obligation with hypotheses, states and operands that meet them. -/

namespace Sys2Proof.Tests

open Sys2Proof.Machine

/-! ### Decoding: words written out bit by bit (30_encoding.md R70, R73; 95_test_vectors.md section 2.6) -/

theorem test_decode_nop :
    decode (0b000#3 ++ 0b11111111#8 ++ 0xFFFFFFFFFFFFFFFF#64 : BitVec 75) = .nop 255 0xFFFFFFFFFFFFFFFF := by decide

theorem test_decode_loadkey :
    decode (0b001#3 ++ 0b01000000#8 ++ 0x133457799BBCDFF1#64 : BitVec 75) = .loadkey 64 0x133457799BBCDFF1 := by
  decide

theorem test_decode_enc :
    decode (0b010#3 ++ 0b01000000#8 ++ 0x0123456789ABCDEF#64 : BitVec 75) = .enc 64 0x0123456789ABCDEF := by decide

theorem test_decode_dec : decode (0b011#3 ++ 0b00111111#8 ++ 1#64 : BitVec 75) = .dec 63 1 := by decide

theorem test_decode_clear : decode 0x4000000000000000000#75 = .clear 0 0 := by decide

theorem test_decode_reserved5 : decode 0x5000000000000000000#75 = .reserved5 0 0 := by decide

theorem test_decode_reserved6 : decode 0x6018000000000000000#75 = .reserved6 1 0x8000000000000000 := by decide

theorem test_decode_reserved7 : decode 0x7FF0000000000000000#75 = .reserved7 255 0 := by decide

theorem test_encode_enc : encode (.enc 64 0x0123456789ABCDEF) = 0x2400123456789ABCDEF#75 := by decide

theorem test_response_word :
    encodeResponse { status := .ok, hasData := true, data := 0x85E813540F0AB405 } = 0x185E813540F0AB405#68 ∧
    encodeResponse { status := .error .keyLocked, hasData := false, data := 0 } = 0xC0000000000000000#68 := by decide

theorem test_decodeTableWord :
    decodeTableWord 75 0x2400123456789ABCDEF = some (.enc 64 0x0123456789ABCDEF) ∧
    decodeTableWord 80 0x7FFFFFFFFFFFFFFFFFF = some (.reserved7 255 0xFFFFFFFFFFFFFFFF) := by decide

/-! ### Well-formedness: an ill-formed term for each check, which the check refuses -/

theorem test_wf_word_too_wide : commandWordWf (2 ^ 75) = false ∧ commandWordWf (2 ^ 75 - 1) = true := by decide

theorem test_wf_decode_rejects_by_name : decodeWord (2 ^ 75) = .error .wordTooWide := rfl

theorem test_wf_response_data_without_flag :
    Response.wf { status := .ok, hasData := false, data := 1 } = false := by decide

theorem test_wf_response_error_with_data :
    Response.wf { status := .error .keyLocked, hasData := true, data := 0 } = false ∧
    Response.wf { status := .error .keyLocked, hasData := false, data := 1 } = false := by decide

theorem test_wf_response_host_error :
    Response.wf { status := .error .invalidEncoding, hasData := false, data := 0 } = false ∧
    Response.wf { status := .error .illegalCommand, hasData := false, data := 0 } = true := by decide

theorem test_wf_table_entry_zero : PermTable.wf (lin := 4) (lout := 2) ⟨#v[0, 4]⟩ = false := by decide

theorem test_wf_table_entry_beyond : PermTable.wf (lin := 4) (lout := 2) ⟨#v[1, 5]⟩ = false := by decide

theorem test_wf_sbox_repeats :
    SboxTable.wf ⟨Vector.replicate 4 (Vector.replicate 16 0)⟩ = false ∧ SboxTable.wf (Rom.sbox[0]) = true := by
  decide

/-- Every command is well formed (R71, R81), so there is none for `Instr.wf` to refuse. -/
theorem test_wf_instr (i : Instr) : i.wf = true := by cases i <;> rfl

/-! ### Primitives (95_test_vectors.md sections 2.1, 2.2, 2.5) -/

theorem test_permute_data :
    permute Rom.ip 0x123456ABCD132536 = 0x14A7D67818CA18AD ∧ permute Rom.fp 0x0A4CD99543423234 = 0x85E813540F0AB405 ∧
    permute Rom.e 0xF0AAF0AA = 0x7A15557A1555 ∧ permute Rom.p 0x5C82B597 = 0x234AA9BB := by decide +kernel

theorem test_permute_key :
    permute Rom.pc1 0x133457799BBCDFF1 = 0xF0CCAAF556678F ∧ permute Rom.pc2 0xE19955FAACCF1E = 0x1B02EFFC7072 := by
  decide +kernel

theorem test_rotl28 : rotl28 0x8000001 1 = 0x0000003 ∧ rotl28 0xC000000 2 = 0x0000003 := by decide

/-- The two orders of the row bits give different boxes' rows (section 2.2). -/
theorem test_sbox_row_order :
    sbox 0 0b000001 = 0 ∧ sbox 0 0b100000 = 4 ∧ sbox 3 0b011110 = 15 ∧ sbox 7 0b101010 = 12 := by decide

theorem test_sboxStage : sboxStage 0x6117BA866527 = 0x5C82B597 ∧ sboxStage 0 = 0xEFA72C4D := by decide +kernel

/-- Keys made from a master key (section 2.3), and a block under them (section 2.4). -/
theorem test_keySchedule :
    (keySchedule 0x133457799BBCDFF1)[0] = 0x1B02EFFC7072 ∧ (keySchedule 0x133457799BBCDFF1)[9] = 0xB1F347BA464F ∧
    (keySchedule 0x133457799BBCDFF1)[15] = 0xCB3D8B0E17F5 := by decide +kernel

theorem test_crypt : crypt (keySchedule 0x133457799BBCDFF1) 0x0123456789ABCDEF = 0x85E813540F0AB405 := by
  decide +kernel

/-! ### One step at a time -/

/-- A field of the next state, where there is one. -/
def after {α : Type} (f : State → α) : StepResult → Option α
  | .next s => some (f s)
  | .fault _ => none
  | .refused _ => none

theorem exists_of_after {α : Type} {f : State → α} {o : StepResult} {x : α} (h : after f o = some x) :
    ∃ t, o = .next t ∧ f t = x := by
  cases o with
  | next t => exact ⟨t, rfl, by simpa [after] using h⟩
  | fault e => simp [after] at h
  | refused e => simp [after] at h

/-- The block after reset with a command offered. -/
def offering (i : Instr) : State := { State.reset with host := [.offer (encode i)] }

/-- A state `Keyed(k)` (R219), as a LOADKEY leaves it. -/
def keyed (k : Word64) : State :=
  { State.reset with
    key := some k
    c := some (keyHalves k 0).1
    d := some (keyHalves k 0).2
    rk := (keySchedule k).map some
    kvalid := true
    rnd := 16 }

/-- Phase KS with so many rounds done. -/
def inKs (k : Word64) (n : BitVec 5) : State :=
  { State.reset with
    key := some k
    c := some (keyHalves k n.toNat).1
    d := some (keyHalves k n.toNat).2
    rk := Vector.ofFn fun i => if i.val < n.toNat then some (keySchedule k)[i] else none
    rnd := n
    phase := .ks }

/-- Phase BLK with these halves and so many rounds done. -/
def inBlk (k : Word64) (dir : Dir) (n : BitVec 5) (l r : Word32) : State :=
  { keyed k with l := some l, r := some r, dir := some dir, rnd := n, phase := .blk }

/-- Phase FIN with these halves. -/
def inFin (k : Word64) (l r : Word32) : State :=
  { keyed k with l := some l, r := some r, dir := some .encrypt, rnd := 16, phase := .fin }

theorem test_nop_ignores_fields :
    after (fun s => (s.resp, s.rnd, s.host)) (step (offering (.nop 255 0xFFFFFFFFFFFFFFFF))) =
      some ([{ status := .ok, hasData := false, data := 0 }], 0, []) := by decide

theorem test_nop_keeps_log :
    after State.elog (exec (.nop 0 0) { State.reset with elog := 0x80 }) = some 0x80 := by decide

theorem test_loadkey_start :
    after (fun s => (s.c, s.d, s.phase)) (step (offering (.loadkey 64 0x133457799BBCDFF1))) =
      some (some 0xF0CCAAF, some 0x556678F, .ks) := by decide +kernel

theorem test_loadkey_length_before_lock :
    after (fun s => (s.resp.map (·.status), s.elog))
      (exec (.loadkey 60 0) { State.reset with kvalid := true }) = some ([.error .invalidKeyLength], 0x04) := by decide

theorem test_enc_start :
    after (fun s => (s.l, s.r, s.dir)) (exec (.enc 64 0x0123456789ABCDEF) { State.reset with kvalid := true }) =
      some (some 0xCC00CCFF, some 0xF0AAF0AA, some .encrypt) := by decide +kernel

theorem test_enc_length_before_ready :
    after (fun s => (s.resp.map (·.status), s.elog)) (exec (.enc 60 0) State.reset) =
      some ([.error .lengthMismatch], 0x08) := by decide

theorem test_dec_start :
    after (fun s => (s.l, s.r, s.dir)) (exec (.dec 64 0x85E813540F0AB405) { State.reset with kvalid := true }) =
      some (some 0x0A4CD995, some 0x43423234, some .decrypt) := by decide +kernel

theorem test_dec_not_ready :
    after (fun s => (s.resp.map (·.status), s.elog)) (exec (.dec 64 0) State.reset) =
      some ([.error .keyNotReady], 0x20) := by decide

theorem test_clear_forgets :
    after (fun s => (s.key, s.kvalid, s.elog, s.resp.length))
      (exec (.clear 7 9) { State.reset with key := some 1, kvalid := true, elog := 0x40, resp := [doneResponse] }) =
      some (none, false, 0, 2) := by decide

theorem test_reserved5_logs :
    after (fun s => (s.elog, s.kvalid, s.resp)) (exec (.reserved5 0 0) { State.reset with kvalid := true }) =
      some (0x80, true, [{ status := .error .illegalCommand, hasData := false, data := 0 }]) := by decide

theorem test_reserved6_logs : after State.elog (exec (.reserved6 64 1) State.reset) = some 0x80 := by decide

theorem test_reserved7_logs : after State.elog (exec (.reserved7 255 0) State.reset) = some 0x80 := by decide

/-- Key-schedule round 1 (section 2.3): rotated before it is compressed. -/
theorem test_ks_first_round :
    after (fun s => (s.c, s.d, s.rk[0], s.rnd, s.phase)) (step { State.reset with
      c := some 0xF0CCAAF, d := some 0x556678F, phase := .ks }) =
      some (some 0xE19955F, some 0xAACCF1E, some 0x1B02EFFC7072, 1, .ks) := by decide +kernel

/-- Key-schedule round 16 (section 2.3): shift 1, `KVALID` set, the response. -/
theorem test_ks_last_round :
    after (fun s => (s.c, s.rk[15], s.kvalid, s.phase, s.resp)) (step { State.reset with
      c := some 0xF866557, d := some 0xAAB33C7, rnd := 15, phase := .ks }) =
      some (some 0xF0CCAAF, some 0xCB3D8B0E17F5, true, .idle, [doneResponse]) := by decide +kernel

/-- Round 0 of ENC (section 2.5): a swap. -/
theorem test_enc_first_round :
    after (fun s => (s.l, s.r, s.rnd, s.phase)) (step (inBlk 0x133457799BBCDFF1 .encrypt 0 0xCC00CCFF 0xF0AAF0AA)) =
      some (some 0xF0AAF0AA, some 0xEF4A6544, 1, .blk) := by decide +kernel

/-- Round 15 of DEC (section 2.4): `RK[0]`, no swap. -/
theorem test_dec_last_round :
    after (fun s => (s.l, s.r, s.rnd, s.phase)) (step (inBlk 0x133457799BBCDFF1 .decrypt 15 0xEF4A6544 0xF0AAF0AA)) =
      some (some 0xCC00CCFF, some 0xF0AAF0AA, 16, .fin) := by decide +kernel

theorem test_final_step :
    after (fun s => (s.resp, s.phase, s.rnd)) (step (inFin 0 0x0A4CD995 0x43423234)) =
      some ([{ status := .ok, hasData := true, data := 0x85E813540F0AB405 }], .idle, 16) := by decide +kernel

/-- `rst` in the middle of a command: no response, the key gone (R217). -/
theorem test_rst_abandons :
    after (fun s => (s.phase, s.resp, s.kvalid)) (step { inFin 0 1 2 with host := [.rst], resp := [doneResponse] }) =
      some (.idle, [], false) := by decide +kernel

/-- A word offered while the block is busy is held (R83). -/
theorem test_busy_holds_offer :
    after (fun s => (s.host, s.elog)) (step { inFin 0 1 2 with host := [.offer (encode (.reserved5 0 0))] }) =
      some ([.offer (encode (.reserved5 0 0))], 0) := by decide +kernel

/-- A word placed by `withFetchWord` is the first the block runs after reset. -/
theorem test_withFetchWord :
    after State.elog (step (State.reset.withFetchWord 75 0x5000000000000000000)) = some 0x80 := by decide

/-! ### The host's side (95_test_vectors.md sections 1.1 and 3) -/

theorem test_split_pads :
    splitIntoBlocks ['A', 'B', 'C', 'D', 'E', 'F'] =
      [['A', 'B', 'C', 'D', 'E', 'F', '0', '0', '0', '0', '0', '0', '0', '0', '0', '0']] := by decide

theorem test_textToHex : textToHex ['h', Char.ofNat 0xE9] = ['6', '8', 'C', '3', 'A', '9'] := by decide

theorem test_hexToText_strips :
    hexToText ['4', '8', '6', '9', '0', '0', '0', '0'] = .ok ['H', 'i'] := by rfl

/-- A character that is no hex digit in an odd number of them (R190). -/
theorem test_hexToText_rejects_odd : hexToText ['4', '8', 'G'] = .error .invalidEncoding := by rfl

theorem test_hexToText_rejects : hexToText ['C', '3'] = .error .decodeError := by rfl

theorem test_hexToBinary_rejects : hexToBinary ['0', 'G'] = .error .invalidEncoding := by rfl

theorem test_assemble_comment :
    assembleLine ['N', 'O', 'P', ' ', ';', 'x'] = .ok [.nop 0 0] ∧ assembleLine ['N', 'O'] = .error .notACommand :=
  ⟨rfl, rfl⟩

/-- A `REKEY` whose key is no hex leaves the block as it is (log entry 21). -/
theorem test_rekey_checks_first (s : State) : rekey ['0', 'G'] s = (.error (.error .invalidEncoding), s) := rfl

/-- No digits: `dlen = 0` (R72, log entry 16), and no block (R175, log entry 18). -/
theorem test_assemble_no_digits :
    assembleLine ['L', 'O', 'A', 'D', 'K', 'E', 'Y'] = .ok [.loadkey 0 0] ∧
    assembleLine ['E', 'N', 'C', 'M', ' '] = .ok [] := ⟨rfl, rfl⟩

theorem test_assemble_short_operand :
    assembleLine ['L', 'O', 'A', 'D', 'K', 'E', 'Y', ' ', 'a', 'B'] = .ok [.loadkey 8 0] := by rfl

/-! ### Witnesses: for each obligation with hypotheses, states and operands that meet all of them together -/

theorem test_witness_DecodeEncodeInverse :
    Instr.wf (.reserved7 255 0xFFFFFFFFFFFFFFFF) = true ∧ Instr.wf (.nop 0 0) = true := ⟨rfl, rfl⟩

theorem test_witness_OpSelectsCommand :
    (0x2FFFFFFFFFFFFFFFFFF#75).extractLsb' 72 3 = (0x2000000000000000000#75).extractLsb' 72 3 := by decide

theorem test_witness_StepRunsOfferedCommand_held :
    Instr.wf (.enc 64 1) = true ∧ (offering (.enc 64 1)).phase = .idle ∧
    (offering (.enc 64 1)).host = .offer (encode (.enc 64 1)) :: [] := ⟨rfl, rfl, rfl⟩

theorem test_witness_StepRunsOfferedCommand_once :
    Instr.wf (.clear 0 0) = true ∧ ({ keyed 1 with host := [.offerOnce (encode (.clear 0 0)), .idle] } : State).phase = .idle ∧
    ({ keyed 1 with host := [.offerOnce (encode (.clear 0 0)), .idle] } : State).host =
      .offerOnce (encode (.clear 0 0)) :: [.idle] := ⟨rfl, rfl, rfl⟩

theorem test_witness_IdleKeepsAllState :
    (keyed 1).phase = .idle ∧ (keyed 1).host = [] ∧ ({ keyed 1 with host := [.idle] } : State).phase = .idle ∧
    ∃ rest, ({ keyed 1 with host := [.idle] } : State).host = .idle :: rest := ⟨rfl, rfl, rfl, [], rfl⟩

theorem test_witness_ResetAbandonsCommand :
    ({ inFin 1 2 3 with host := [.rst] } : State).host = .rst :: [] ∧ (inKs 1 0).phase ≠ .idle ∧
    rstAsserted (inKs 1 0) = false := ⟨rfl, by decide +kernel, rfl⟩

theorem test_witness_BusyHoldsOffer :
    (inFin 1 2 3).phase ≠ .idle ∧ (inFin 1 2 3).host = [] ∧ ∃ t, step (inFin 1 2 3) = .next t :=
  ⟨nofun, rfl, _, rfl⟩

theorem test_witness_StatusViewAndHandshake :
    rstAsserted { State.reset with host := [.rst] } = true ∧ rstAsserted (offering (.nop 0 0)) = false ∧
    accepts (offering (.nop 0 0)) = true := ⟨rfl, rfl, rfl⟩

/-- `cmd_ready` in IDLE, without and with `rst` asserted (R33, R215). -/
theorem test_cmd_ready :
    (statusView State.reset).cmdReady = true ∧ (statusView { State.reset with host := [.rst] }).cmdReady = false :=
  ⟨rfl, rfl⟩

theorem test_witness_AcceptTestsInOrder :
    (keyed 1).phase = .idle ∧ ({ keyed 1 with host := [.offer 5, .rst] } : State).host = .offer 5 :: [.rst] ∧
    ({ keyed 1 with host := [.offerOnce 5] } : State).host = .offerOnce 5 :: [] := ⟨rfl, rfl, rfl⟩

theorem test_witness_ReservedRaisesIllegalCommand :
    ∀ i ∈ [Instr.reserved5 0 1, .reserved6 0 1, .reserved7 0 1],
      i = .reserved5 0 1 ∨ i = .reserved6 0 1 ∨ i = .reserved7 0 1 := by decide

theorem test_witness_LoadkeyStartsSchedule : State.reset.kvalid = false := rfl

theorem test_witness_LoadkeyRefusals :
    (63#8 ≠ 64 ∧ 65#8 ≠ 64) ∧ (64#8 = 64 ∧ (keyed 1).kvalid = true) ∧ (64#8 = 64 ∧ State.reset.kvalid = false) :=
  ⟨by decide, ⟨rfl, rfl⟩, rfl, rfl⟩

theorem test_witness_BlockCommandsStart : (keyed 1).kvalid = true := rfl

theorem test_witness_BlockCommandRefusals :
    (Instr.enc 0 1 = .enc 0 1 ∧ 0#8 ≠ 64) ∧ (Instr.dec 64 1 = .dec 64 1 ∧ 64#8 = 64 ∧ State.reset.kvalid = false) ∧
    (Instr.enc 64 1 = .enc 64 1 ∧ 64#8 = 64 ∧ (keyed 1).kvalid = true) :=
  ⟨⟨rfl, by decide⟩, ⟨rfl, rfl, rfl⟩, rfl, rfl, rfl⟩

theorem test_witness_BlockCommandRefusals_only :
    (∃ t r, exec (.enc 60 0) State.reset = .next t ∧ t.resp = State.reset.resp ++ [r] ∧
      r.status = .error .lengthMismatch) ∧
    ∃ t r, exec (.dec 64 0) State.reset = .next t ∧ t.resp = State.reset.resp ++ [r] ∧
      r.status = .error .keyNotReady := ⟨⟨_, _, rfl, rfl, rfl⟩, _, _, rfl, rfl, rfl⟩

theorem test_witness_ErrorsArePrecise_raised :
    ∃ t r, exec (.enc 60 0) State.reset = .next t ∧ t.resp = State.reset.resp ++ [r] ∧
      r.status = .error .lengthMismatch := ⟨_, _, rfl, rfl, rfl⟩

theorem test_witness_ErrorsArePrecise_started :
    (inFin 1 2 3).phase ≠ .idle ∧ rstAsserted (inFin 1 2 3) = false ∧ ∃ t, step (inFin 1 2 3) = .next t :=
  ⟨nofun, rfl, _, rfl⟩

/-- Two keys that differ only in parity positions (95_test_vectors.md section 2.3). -/
theorem parity_twins :
    ∀ p, 1 ≤ p → p ≤ 64 → p % 8 ≠ 0 → pos 0x133457799BBCDFF1#64 p = pos 0x123556789ABDDEF0#64 p := by
  have h : ∀ i : Fin 64, (i.val + 1) % 8 ≠ 0 →
      pos 0x133457799BBCDFF1#64 (i.val + 1) = pos 0x123556789ABDDEF0#64 (i.val + 1) := by decide +kernel
  intro p h1 h2
  obtain ⟨i, rfl⟩ : ∃ i, p = i + 1 := ⟨p - 1, by omega⟩
  exact h ⟨i, by omega⟩

theorem test_witness_UnusedFieldsIgnored :
    0#8 ≠ 64 ∧ 0x133457799BBCDFF1#64 ≠ 0x123556789ABDDEF0#64 ∧
    ∀ p, 1 ≤ p → p ≤ 64 → p % 8 ≠ 0 → pos 0x133457799BBCDFF1#64 p = pos 0x123556789ABDDEF0#64 p :=
  ⟨by decide, by decide, parity_twins⟩

theorem test_witness_KeyScheduleRoundEffect : ∀ n ∈ ([0, 14, 15] : List (BitVec 5)),
    (inKs 1 n).rnd.toNat < 16 ∧ (inKs 1 n).phase = .ks ∧ (∃ c, (inKs 1 n).c = some c) ∧ (∃ d, (inKs 1 n).d = some d) ∧
    rstAsserted (inKs 1 n) = false :=
  fun n hn => ⟨by revert n; decide, rfl, ⟨_, rfl⟩, ⟨_, rfl⟩, rfl⟩

theorem test_witness_FeistelRoundEffect : ∀ dir : Dir, ∀ n ∈ ([0, 14, 15] : List (BitVec 5)),
    (inBlk 1 dir n 2 3).phase = .blk ∧ (inBlk 1 dir n 2 3).rnd.toNat < 16 ∧ (inBlk 1 dir n 2 3).l = some 2 ∧
    (inBlk 1 dir n 2 3).r = some 3 ∧ (inBlk 1 dir n 2 3).dir = some dir ∧
    (∃ (j : Fin 16) (k : Word48), (dir = .encrypt → j.val = (inBlk 1 dir n 2 3).rnd.toNat) ∧
      (dir = .decrypt → j.val = 15 - (inBlk 1 dir n 2 3).rnd.toNat) ∧ (inBlk 1 dir n 2 3).rk[j] = some k) ∧
    rstAsserted (inBlk 1 dir n 2 3) = false := by
  intro dir n hn
  have hlt : n.toNat < 16 := by
    clear dir
    revert n
    decide
  refine ⟨rfl, hlt, rfl, rfl, rfl, ⟨roundKeyIndex dir ⟨n.toNat, hlt⟩, _, ?_, ?_, Vector.getElem_map _ _⟩, rfl⟩
  · rintro rfl; rfl
  · rintro rfl; rfl

theorem test_witness_FinalMicroStepResponds :
    (inFin 1 2 3).phase = .fin ∧ (inFin 1 2 3).l = some 2 ∧ (inFin 1 2 3).r = some 3 ∧
    rstAsserted (inFin 1 2 3) = false := ⟨rfl, rfl, rfl, rfl⟩

/-- The ends of the position ranges of `PermuteSelectsPositions`, `RotateLeftByPositions`, `ExpansionIsCyclic`,
`TableProperties`, `SboxStageByGroups`, `FinalMicroStepResponds` and `KeyScheduleBitwise`. -/
theorem test_witness_positions :
    (1 ≤ 1 ∧ 1 ≤ 64) ∧ (1 ≤ 64 ∧ 64 ≤ 64) ∧ (1 ≤ 48 ∧ 48 ≤ 48) ∧ (1 ≤ 32 ∧ 32 ≤ 32) ∧ (1 ≤ 56 ∧ 56 ≤ 56) ∧
    (1 ≤ 28 ∧ 28 ≤ 28) ∧ (1 ≤ 24 ∧ 24 ≤ 24) ∧ (25 ≤ 25 ∧ 25 ≤ 48) ∧ (1 ≤ 8 ∧ 8 ≤ 8) ∧ (1 ≤ 6 ∧ 6 ≤ 6) := by decide

theorem test_witness_RotateLeftByPositions : (1 = 1 ∨ 1 = 2) ∧ (2 = 1 ∨ 2 = 2) := by decide

theorem test_witness_SboxStageByGroups :
    ((2 : Fin 4).val = 2 * (pos 0b100110#6 1).toNat + (pos 0b100110#6 6).toNat) ∧
    ((3 : Fin 16).val = 8 * (pos 0b100110#6 2).toNat + 4 * (pos 0b100110#6 3).toNat + 2 * (pos 0b100110#6 4).toNat +
      (pos 0b100110#6 5).toNat) ∧
    ∀ m : Fin 6, pos 0b100110#6 (m.val + 1) = pos 0x6117BA866527#48 (6 * (5 : Fin 8).val + (m.val + 1)) := by decide

theorem test_witness_LoadkeyComputesSchedule :
    (offering (.loadkey 64 1)).phase = .idle ∧ (offering (.loadkey 64 1)).kvalid = false ∧ holds [] ∧
    holds [.offer 7, .rst] ∧ (offering (.loadkey 64 1)).host = .offer (encode (.loadkey 64 1)) :: [] :=
  ⟨rfl, rfl, .inl rfl, .inr ⟨7, [.rst], rfl⟩, rfl⟩

/-- The block holding a key and idle, the host driving this. -/
theorem keyed_ready (k : Word64) (host : List Drive) : Ready (keySchedule k) { keyed k with host := host } :=
  ⟨rfl, rfl, rfl⟩

theorem keyed_keyed (k : Word64) (host : List Drive) : Keyed k { keyed k with host := host } := ⟨rfl, rfl, rfl, rfl⟩

theorem test_witness_BlockCommandsComputeCrypt :
    Ready (keySchedule 1) { keyed 1 with host := .offer (encode (.enc 64 2)) :: [.offer 7] } ∧
    Ready (keySchedule 1) { keyed 1 with host := .offer (encode (.dec 64 2)) :: [] } ∧ holds [.offer 7] ∧ holds [] :=
  ⟨keyed_ready _ _, keyed_ready _ _, .inr ⟨7, [], rfl⟩, .inl rfl⟩

theorem test_witness_DecryptionInvertsEncryption :
    Keyed 1 { keyed 1 with host := [.offer (encode (.enc 64 2))] } ∧
    Keyed 1 { keyed 1 with host := [.offer (encode (.dec 64 2))] } := ⟨keyed_keyed _ _, keyed_keyed _ _⟩

theorem test_witness_ParityBitsInfluenceNothing :
    (∀ p, 1 ≤ p → p ≤ 64 → p % 8 ≠ 0 → pos 0x133457799BBCDFF1#64 p = pos 0x123556789ABDDEF0#64 p) ∧
    Keyed 0x133457799BBCDFF1 { keyed 0x133457799BBCDFF1 with host := [.offer (encode (.dec 64 2))] } ∧
    Keyed 0x123556789ABDDEF0 { keyed 0x123556789ABDDEF0 with host := [.offer (encode (.dec 64 2))] } :=
  ⟨parity_twins, keyed_keyed _ _, keyed_keyed _ _⟩

theorem test_witness_EqualRoundKeysSelfInverse :
    (∀ i j : Fin 16, (Vector.replicate 16 5#48)[i] = (Vector.replicate 16 5#48)[j]) ∧
    (keyHalves 0x1F1F1F1F0E0E0E0E 0).1 = 0 ∧ (keyHalves 0x1F1F1F1F0E0E0E0E 0).2 = BitVec.allOnes 28 :=
  ⟨by simp, by decide +kernel, by decide +kernel⟩

/-- Two states that agree in the round keys and differ in much else. -/
theorem test_witness_BlocksAreIndependent :
    Ready (keySchedule 1) { keyed 1 with host := [.offer (encode (.enc 64 2))] } ∧
    Ready (keySchedule 1) { keyed 1 with
      key := none, l := some 9, r := some 8, dir := some .decrypt, rnd := 31, elog := 0x40, resp := [doneResponse]
      host := [.offer (encode (.enc 64 2))] } := ⟨keyed_ready _ _, rfl, rfl, rfl⟩

/-- A loaded key, with a block under way or none, meets the invariants (R36). -/
theorem keyed_Inv (k : Word64) (host : List Drive) : State.Inv { keyed k with host := host } where
  keyed := fun _ => ⟨k, rfl, rfl, rfl, rfl⟩
  inKs := nofun
  inBlk := nofun
  inFin := nofun
  rndBound := by simp [Tests.keyed]
  elogZero := by simp [Tests.keyed, State.reset]
  elogCause := by simp [Tests.keyed, State.reset]
  respShapes := by simp [Tests.keyed, State.reset]

theorem inBlk_Inv (k : Word64) (dir : Dir) (n : BitVec 5) (l r : Word32) (h : n.toNat < 16) :
    State.Inv (inBlk k dir n l r) where
  keyed := fun _ => ⟨k, rfl, rfl, rfl, rfl⟩
  inKs := nofun
  inBlk := fun _ => ⟨rfl, h, rfl, rfl, rfl⟩
  inFin := nofun
  rndBound := Nat.le_of_lt h
  elogZero := by simp [Tests.inBlk, Tests.keyed, State.reset]
  elogCause := by simp [Tests.inBlk, Tests.keyed, State.reset]
  respShapes := by simp [Tests.inBlk, Tests.keyed, State.reset]

theorem inKs_Inv (k : Word64) (n : BitVec 5) (h : n.toNat < 16) : State.Inv (inKs k n) where
  keyed := nofun
  inKs := fun _ => ⟨rfl, h, k, rfl, rfl, rfl, fun i hi => by
    simp only [Tests.inKs] at hi ⊢
    simp [hi]⟩
  inBlk := nofun
  inFin := nofun
  rndBound := Nat.le_of_lt h
  elogZero := by simp [Tests.inKs, State.reset]
  elogCause := by simp [Tests.inKs, State.reset]
  respShapes := by simp [Tests.inKs, State.reset]

theorem test_witness_StepKeepsInvariants :
    State.Inv { keyed 1 with host := [.offer (encode (.enc 64 2))] } ∧
    ∃ t, step { keyed 1 with host := [.offer (encode (.enc 64 2))] } = .next t := ⟨keyed_Inv _ _, _, rfl⟩

theorem test_witness_StepNeverStops :
    State.Inv (inKs 1 15) ∧ State.Inv (inBlk 1 .decrypt 15 2 3) ∧ State.Inv { keyed 1 with host := [.rst] } :=
  ⟨inKs_Inv _ _ (by decide), inBlk_Inv _ _ _ _ _ (by decide), keyed_Inv _ _⟩

/-- The longest command's start and the last micro-step but one, with steps left. -/
theorem test_witness_BusyPhasesEnd :
    (State.Inv (inBlk 1 .encrypt 0 2 3) ∧ noRst (inBlk 1 .encrypt 0 2 3) ∧ stepsLeft (inBlk 1 .encrypt 0 2 3) = 17) ∧
    (State.Inv (inKs 1 15) ∧ noRst (inKs 1 15) ∧ 0 < stepsLeft (inKs 1 15) ∧ run 0 (inKs 1 15) = .next (inKs 1 15)) :=
  ⟨⟨inBlk_Inv _ _ _ _ _ (by decide), by simp [noRst, Tests.inBlk, Tests.keyed, State.reset], rfl⟩,
    inKs_Inv _ _ (by decide), by simp [noRst, Tests.inKs, State.reset], by decide +kernel, rfl⟩

theorem test_witness_OneResponsePerCommand :
    noRst (offering (.nop 0 0)) ∧ acceptedIn 1 (offering (.nop 0 0)) = 1 ∧ ∃ t, run 1 (offering (.nop 0 0)) = .next t :=
  ⟨by simp [noRst, offering], rfl, _, rfl⟩

theorem test_witness_KvalidWrittenOnlyAsStated :
    (∃ t, step (inKs 1 15) = .next t ∧ t.kvalid = true ∧ (inKs 1 15).kvalid = false ∧ (inKs 1 15).phase = .ks ∧
      (inKs 1 15).rnd = 15 ∧ rstAsserted (inKs 1 15) = false) ∧
    ∃ t, step { keyed 1 with host := [.offer (encode (.clear 0 0))] } = .next t ∧ t.kvalid = false ∧
      discards { keyed 1 with host := [.offer (encode (.clear 0 0))] } = true :=
  ⟨⟨_, rfl, rfl, rfl, rfl, rfl, rfl⟩, _, rfl, rfl, rfl⟩

theorem test_witness_LoadedKeyIsImmutable :
    State.Inv { keyed 1 with host := [.offer (encode (.loadkey 64 2))] } ∧
    (keyed 1).kvalid = true ∧ (∃ t, step { keyed 1 with host := [.offer (encode (.loadkey 64 2))] } = .next t) ∧
    discards { keyed 1 with host := [.offer (encode (.loadkey 64 2))] } = false :=
  ⟨keyed_Inv _ _, rfl, ⟨_, rfl⟩, rfl⟩

theorem test_witness_ErrorLogIsSticky :
    (∃ t, step (offering (.dec 64 0)) = .next t ∧ discards (offering (.dec 64 0)) = false ∧ t.elog = 0x20) ∧
    ∃ t, step { State.reset with elog := 0x80, host := [.rst] } = .next t ∧
      discards { State.reset with elog := 0x80, host := [.rst] } = true :=
  ⟨⟨_, rfl, rfl, rfl⟩, _, rfl, rfl⟩

theorem test_witness_PhaseTransitions :
    (∃ t, step (offering (.loadkey 64 1)) = .next t ∧ rstAsserted (offering (.loadkey 64 1)) = false ∧ t.phase = .ks) ∧
    (∃ t, step { keyed 1 with host := [.offer (encode (.dec 64 1))] } = .next t ∧ t.phase = .blk) ∧
    (∃ t, step (inKs 1 14) = .next t ∧ t.phase = .ks) ∧ (∃ t, step (inKs 1 15) = .next t ∧ t.phase = .idle) ∧
    (∃ t, step (inBlk 1 .encrypt 15 2 3) = .next t ∧ t.phase = .fin) ∧
    ∃ t, step (inFin 1 2 3) = .next t ∧ t.phase = .idle :=
  ⟨⟨_, rfl, rfl, rfl⟩, ⟨_, rfl, rfl⟩, ⟨_, rfl, rfl⟩, ⟨_, rfl, rfl⟩,
    exists_of_after (f := State.phase) (by decide +kernel), _, rfl, rfl⟩

theorem test_witness_HexRoundTrip : 'A' ∈ binaryToHex (wordBits 0xA000000000000000) := by decide +kernel

theorem test_witness_BlocksSplitTheMessage :
    ['0', '1', '2', '3', '4', '5', '6', '7', '8', '9', 'A', 'B', 'C', 'D', 'E', 'F'] ∈
      splitIntoBlocks ['0', '1', '2', '3', '4', '5', '6', '7', '8', '9', 'A', 'B', 'C', 'D', 'E', 'F', '1'] := by decide

theorem test_witness_CiphertextLength : Keyed 1 (keyed 1) ∧ (utf8Encode ['H', Char.ofNat 0xE9]).length = 3 :=
  ⟨keyed_keyed 1 [], rfl⟩

theorem test_witness_TextRoundTrip :
    Keyed 1 (keyed 1) ∧ stripNulText ['H', Char.ofNat 0, 'i', Char.ofNat 0] = ['H', Char.ofNat 0, 'i'] :=
  ⟨keyed_keyed 1 [], by decide⟩

end Sys2Proof.Tests
end

section
/-! The primitives of 00_scope.md (R5, R6, R8, R9): `Permute`, `rotl28` and the S-box stage, by DES positions. -/

namespace Sys2Proof.Machine

/-- Settles O23: the rule of `Permute` by positions holds of every table. -/
theorem permuteSelectsPositions : Obligations.PermuteSelectsPositions :=
  ⟨pos_permute Rom.ip, pos_permute Rom.e, pos_permute Rom.p, pos_permute Rom.fp, pos_permute Rom.pc1,
    pos_permute Rom.pc2⟩

/-- Rotation as an integer: the bits that stay move up by `n` places and the `n` leftmost ones, which come out below
them, do not overlap them (R6). -/
theorem toNat_rotl28 (x : Word28) (n : Nat) (hn : n < 28) :
    (rotl28 x n).toNat = (x.toNat * 2 ^ n) % 2 ^ 28 + x.toNat / 2 ^ (28 - n) := by
  have hpow : 2 ^ (28 - n) * 2 ^ n = 2 ^ 28 := by rw [← pow_add, Nat.sub_add_cancel hn.le]
  have hlow : x.toNat / 2 ^ (28 - n) < 2 ^ n := Nat.div_lt_of_lt_mul (by rw [hpow]; exact x.isLt)
  have hhigh : x.toNat * 2 ^ n % 2 ^ 28 = (x.toNat % 2 ^ (28 - n)) <<< n := by
    rw [Nat.shiftLeft_eq, ← Nat.mul_mod_mul_right, hpow]
  calc (rotl28 x n).toNat
      = (x.toNat * 2 ^ n % 2 ^ 28) ||| x.toNat / 2 ^ (28 - n) := by
        rw [rotl28, BitVec.toNat_rotateLeft, Nat.mod_eq_of_lt hn, Nat.shiftLeft_eq, Nat.shiftRight_eq_div_pow]
    _ = _ := by rw [hhigh, Nat.shiftLeft_add_eq_or_of_lt hlow]

/-- Settles O24: both clauses hold of every rotation by less than 28 places. -/
theorem rotateLeftByPositions : Obligations.RotateLeftByPositions :=
  fun x n hn => ⟨pos_rotl28 x n, toNat_rotl28 x n (by omega)⟩

/-- The row of a group as an integer (R8). -/
theorem sboxRow_val (g : BitVec 6) : (sboxRow g).val = 2 * (pos g 1).toNat + (pos g 6).toNat := by
  revert g; decide

/-- The column of a group as an integer (R8). -/
theorem sboxCol_val (g : BitVec 6) :
    (sboxCol g).val = 8 * (pos g 2).toNat + 4 * (pos g 3).toNat + 2 * (pos g 4).toNat + (pos g 5).toNat := by
  revert g; decide

/-- Positions of a slice: those of the value it is cut from, after the positions to the left of the slice. -/
theorem pos_extractLsb' {w : Nat} (x : BitVec w) (start len k : Nat) (h1 : 1 ≤ k) (h2 : k ≤ len)
    (hw : start + len ≤ w) : pos (x.extractLsb' start len) k = pos x (w - (start + len) + k) := by
  have hk : k - 1 < len := by omega
  have hin : start + len - (k - 1) ≤ w := by omega
  have hpos : w - (start + len - (k - 1)) = w - (start + len) + k - 1 := by omega
  simp only [pos, BitVec.getMsbD_extractLsb', hk, hin, hpos, decide_true, Bool.true_and]

/-- Group j is positions 6j+1 to 6j+6, j from 0 (R9). -/
theorem pos_sboxGroup (x : Word48) (j : Fin 8) (m : Nat) (h1 : 1 ≤ m) (h2 : m ≤ 6) :
    pos (sboxGroup x j) m = pos x (6 * j.val + m) := by
  have hleft : 48 - (42 - 6 * j.val + 6) = 6 * j.val := by omega
  rw [sboxGroup, pos_extractLsb' _ _ _ _ h1 h2 (by omega), hleft]

theorem pos_append_left {a b : Nat} (x : BitVec a) (y : BitVec b) {k : Nat} (h1 : 1 ≤ k) (h2 : k ≤ a) :
    pos (x ++ y) k = pos x k := by
  rw [pos_append _ _ _ h1, if_pos h2]

theorem pos_append_right {a b : Nat} (x : BitVec a) (y : BitVec b) {k : Nat} (h1 : 1 ≤ k) :
    pos (x ++ y) (a + k) = pos y k := by
  rw [pos_append _ _ _ (by omega), if_neg (by omega), Nat.add_sub_cancel_left]

/-- Positions 4j+1 to 4j+4 of the S-box stage are the output of box j, j from 0 (R9). -/
theorem pos_sboxStage (x : Word48) (j : Fin 8) (m : Nat) (h1 : 1 ≤ m) (h2 : m ≤ 4) :
    pos (sboxStage x) (4 * j.val + m) = pos (sboxOut x j) m := by
  rw [sboxStage]
  fin_cases j <;>
    simp (disch := omega) only [pos_append_left, pos_append_right, Nat.mul_zero, Nat.zero_add] <;> rfl

/-- Settles O25: row and column are determined by their values, and a group by its six positions. -/
theorem sboxStageByGroups : Obligations.SboxStageByGroups := by
  constructor
  · intro j g row col hrow hcol
    have hr : sboxRow g = row := Fin.ext ((sboxRow_val g).trans hrow.symm)
    have hc : sboxCol g = col := Fin.ext ((sboxCol_val g).trans hcol.symm)
    rw [sbox, hr, hc]
  · intro x j g hg m h1 h2
    have hgroup : sboxGroup x j = g :=
      eq_of_pos fun k hk1 hk2 => (pos_sboxGroup x j k hk1 hk2).trans (hg k hk1 hk2).symm
    rw [pos_sboxStage x j m h1 h2, sboxOut, hgroup]

end Sys2Proof.Machine
end

section
/-! Reset values, the causes of the error log's bits and the transitions of `PHASE` (10_state.md R31, R32, R37). -/

namespace Sys2Proof.Machine

/-- Settles O39: `State.reset` holds exactly these values; each entry of `RK` is read out of the replicated vector. -/
theorem resetValues : Obligations.ResetValues :=
  ⟨rfl, rfl, rfl, rfl, rfl, rfl, rfl, rfl, fun i => Vector.getElem_replicate i.isLt, rfl, rfl, rfl⟩

/-! ### The fields of a decoded command (R70, R71) -/

@[simp] theorem decode_op (w : CommandWord) : (decode w).op = opField w := by
  unfold decode
  split_ifs with h0 h1 h2 h3 h4 h5 h6
  case neg => show 7#3 = opField w; bv_omega
  all_goals exact Eq.symm ‹opField w = _›

@[simp] theorem decode_dlen (w : CommandWord) : (decode w).dlen = dlenField w := by
  unfold decode; split_ifs <;> rfl

/-! ### What the rounds do to `PHASE`, `ELOG` and `RESP` (R113, R134) -/

@[simp] theorem ksRoundState_phase (s : State) (i : Fin 16) (c d : Word28) :
    (ksRoundState s i c d).phase = if i.val = 15 then .idle else s.phase := by
  unfold ksRoundState; split <;> rfl

@[simp] theorem ksRoundState_elog (s : State) (i : Fin 16) (c d : Word28) :
    (ksRoundState s i c d).elog = s.elog := by
  unfold ksRoundState; split <;> rfl

@[simp] theorem ksRoundState_resp (s : State) (i : Fin 16) (c d : Word28) :
    (ksRoundState s i c d).resp = if i.val = 15 then s.resp ++ [doneResponse] else s.resp := by
  unfold ksRoundState; split <;> rfl

@[simp] theorem feistelRoundState_phase (s : State) (i : Fin 16) (l r : Word32) (k : Word48) :
    (feistelRoundState s i l r k).phase = if i.val = 15 then .fin else s.phase := by
  unfold feistelRoundState
  split
  · rw [if_neg (by omega)]
  · rw [if_pos (by omega)]

@[simp] theorem feistelRoundState_elog (s : State) (i : Fin 16) (l r : Word32) (k : Word48) :
    (feistelRoundState s i l r k).elog = s.elog := by
  unfold feistelRoundState; split <;> rfl

@[simp] theorem feistelRoundState_resp (s : State) (i : Fin 16) (l r : Word32) (k : Word48) :
    (feistelRoundState s i l r k).resp = s.resp := by
  unfold feistelRoundState; split <;> rfl

/-- The round counter as a register value and as a number. -/
theorem toNat_eq_fifteen_iff (n : BitVec 5) : n.toNat = 15 ↔ n = 15 := by
  simp [← BitVec.toNat_inj]

/-! ### Which steps discard the loaded key (R121) -/

theorem discards_of_rst {s : State} (h : rstAsserted s = true) : discards s = true := by
  simp [discards, h]

theorem discards_of_not_offered {s : State} (h : rstAsserted s = false) (ho : offered s = none) :
    discards s = false := by
  simp [discards, acceptsClear, accepts, h, ho]

theorem discards_of_busy {s : State} (h : rstAsserted s = false) (hp : s.phase ≠ .idle) : discards s = false := by
  simp [discards, acceptsClear, accepts, h, hp]

/-- An accepted command discards the loaded key exactly when it is a CLEAR. -/
theorem discards_of_accept {s : State} {w : CommandWord} (h : rstAsserted s = false) (hp : s.phase = .idle)
    (ho : offered s = some w) : discards s = true ↔ opField w = 4 := by
  simp [discards, acceptsClear, accepts, h, hp, ho]

/-! ### The error log (R32) -/

/-- From `s` to `t` the log stays, and what is answered, if anything, is a success. -/
def Succeeds (s t : State) : Prop :=
  t.elog = s.elog ∧ (t.resp = s.resp ∨ ∃ r : Response, r.status = .ok ∧ t.resp = s.resp ++ [r])

/-- From `s` to `t` an error of the block is raised: its bit is logged and it is answered (R192). -/
def Raises (e : ErrorName) (s t : State) : Prop :=
  e.raisedByBlock = true ∧ t.elog = s.elog ||| (1#8 <<< e.code) ∧
    ∃ r : Response, r.status = .error e ∧ t.resp = s.resp ++ [r]

/-- Everything an accept micro-step can do to the log and the responses: CLEAR zeroes the log, any other command
keeps it or raises an error (R32, R162, R192). -/
theorem exec_log_cases {i : Instr} {s t : State} (h : exec i s = .next t) :
    (i.op = 4 ∧ t.elog = 0) ∨ (i.op ≠ 4 ∧ (Succeeds s t ∨ ∃ e, Raises e s t)) := by
  obtain ⟨hop, rfl⟩ | ⟨hop, rfl⟩ | ⟨hop, e, he, rfl⟩ | ⟨hop, -, -, rfl⟩ | ⟨dir, hop, -, -, rfl⟩ := exec_cases h
  · exact .inr ⟨by simp [hop], .inl ⟨rfl, .inr ⟨doneResponse, rfl, rfl⟩⟩⟩
  · exact .inl ⟨hop, rfl⟩
  · exact .inr ⟨hop, .inr ⟨e, he, rfl, _, rfl, rfl⟩⟩
  · exact .inr ⟨by simp [hop], .inl ⟨rfl, .inl rfl⟩⟩
  · exact .inr ⟨by cases dir <;> simp [hop], .inl ⟨rfl, .inl rfl⟩⟩

/-- Everything a step can do to the log and the responses (R32, R192): discard the loaded key and zero the log, keep the
log, or raise one of the block's errors. -/
theorem step_log_cases {s t : State} (h : step s = .next t) :
    (discards s = true ∧ t.elog = 0) ∨ (discards s = false ∧ (Succeeds s t ∨ ∃ e, Raises e s t)) := by
  obtain ⟨hr, rfl⟩ | ⟨hr, hp, ho, rfl⟩ | ⟨hr, hp, w, ho, hx⟩ | ⟨hr, hp, hn, c, d, -, -, rfl⟩ |
    ⟨hr, hp, hn, l, r, dir, k, -, -, -, -, rfl⟩ | ⟨hr, hp, l, r, -, -, rfl⟩ := step_cases h
  · exact .inl ⟨discards_of_rst hr, rfl⟩
  · exact .inr ⟨discards_of_not_offered hr ho, .inl (by simp [Succeeds])⟩
  · have hdisc : discards s = true ↔ (decode w).op = 4 := by rw [decode_op, discards_of_accept hr hp ho]
    obtain ⟨hop, h0⟩ | ⟨hop, hlog⟩ := exec_log_cases hx
    · exact .inl ⟨hdisc.mpr hop, h0⟩
    · exact .inr ⟨Bool.eq_false_iff.mpr (mt hdisc.mp hop), hlog⟩
  · refine .inr ⟨discards_of_busy hr (by simp [hp]), .inl ⟨by simp, ?_⟩⟩
    rw [ksRoundState_resp, afterNoAccept_resp]
    split
    · exact .inr ⟨doneResponse, rfl, rfl⟩
    · exact .inl rfl
  · exact .inr ⟨discards_of_busy hr (by simp [hp]), .inl (by simp [Succeeds])⟩
  · exact .inr ⟨discards_of_busy hr (by simp [hp]), .inl ⟨by simp,
      .inr ⟨mkResponse .ok (some (permute Rom.fp (joinBlock l r))), rfl, by simp⟩⟩⟩

/-- A step without an error answers none. -/
theorem Succeeds.no_error {s t : State} (h : Succeeds s t) {r : Response} {e : ErrorName}
    (hr : t.resp = s.resp ++ [r]) : r.status ≠ .error e := by
  obtain ⟨-, hresp | ⟨r', hok, hresp⟩⟩ := h
  · simp [hresp] at hr
  · obtain rfl : r' = r := by simpa [hresp] using hr
    simp [hok]

/-- A step that raises an error answers that one and no other. -/
theorem Raises.error_unique {e e' : ErrorName} {s t : State} (h : Raises e s t) {r : Response}
    (hr : t.resp = s.resp ++ [r]) (he : r.status = .error e') : e' = e := by
  obtain ⟨-, -, r', he', hresp⟩ := h
  obtain rfl : r' = r := by simpa [hresp] using hr
  simpa [he] using he'

/-- Logging the code `c` sets bit `c` and leaves the other bits. -/
theorem getLsbD_or_one_shiftLeft (x : BitVec 8) {c b : Nat} (hb : b < 8) :
    (x ||| (1#8 <<< c)).getLsbD b = true ↔ x.getLsbD b = true ∨ c = b := by
  have hbit : (1#8 <<< c).getLsbD b = true ↔ c = b := by
    simp only [BitVec.getLsbD_shiftLeft, BitVec.getLsbD_one, hb, decide_true, Bool.true_and, Bool.and_eq_true,
      Bool.not_eq_true', decide_eq_false_iff_not, decide_eq_true_eq]
    omega
  rw [BitVec.getLsbD_or, Bool.or_eq_true, hbit]

/-- The codes of the errors that belong to the host's codec, and 0, are none of the block's (R190, R191). -/
theorem code_of_raisedByBlock {e : ErrorName} (h : e.raisedByBlock = true) : e.code ∉ ([0, 1, 4] : List Nat) := by
  revert h; cases e <;> decide

/-- Settles O48, from the three things a step can do to the log. -/
theorem errorLogIsSticky : Obligations.ErrorLogIsSticky := by
  refine ⟨rfl, fun s t h => ⟨rfl, ?_, ?_, ?_⟩⟩
  · intro hd
    obtain ⟨-, h0⟩ | ⟨hd', -⟩ := step_log_cases h
    · exact h0
    · simp [hd] at hd'
  · intro hd b hb
    obtain ⟨hd', -⟩ | ⟨-, hok | ⟨e, herr⟩⟩ := step_log_cases h
    · simp [hd] at hd'
    · have ⟨hlog, _⟩ := hok
      rw [hlog]
      exact ⟨.inl, fun hor => hor.resolve_right fun ⟨r, e, hr, he, _⟩ => hok.no_error hr he⟩
    · have ⟨_, hlog, r, he, hr⟩ := herr
      rw [hlog, getLsbD_or_one_shiftLeft _ hb]
      refine or_congr_right ⟨fun hcode => ⟨r, e, hr, he, hcode⟩, fun ⟨r', e', hr', he', hcode⟩ => ?_⟩
      rwa [← herr.error_unique hr' he']
  · intro b hb hbit
    have hlt : b < 8 := by fin_cases hb <;> decide
    obtain ⟨-, h0⟩ | ⟨-, ⟨hlog, -⟩ | ⟨e, hraised, hlog, -⟩⟩ := step_log_cases h
    · simp [h0]
    · rwa [hlog]
    · have hcode : e.code ≠ b := fun heq => code_of_raisedByBlock hraised (heq ▸ hb)
      rw [hlog, Bool.eq_false_iff, ne_eq, getLsbD_or_one_shiftLeft _ hlt]
      simp [hbit, hcode]

/-! ### The transitions of `PHASE` (R31) -/

theorem execLoadkey_phase {n : BitVec 8} {x : Word64} {s t : State} (h : execLoadkey n x s = .next t) :
    t.phase = if n = 64 ∧ s.kvalid = false then .ks else s.phase := by
  by_cases hn : n = 64
  · subst hn
    cases hk : s.kvalid with
    | true => rw [execLoadkey_locked x hk] at h; cases h; simp
    | false => rw [execLoadkey_start x hk] at h; cases h; simp
  · rw [execLoadkey_badLength x s hn] at h; cases h; exact (if_neg fun hs => hn hs.1).symm

theorem acceptBlock_phase {dir : Dir} {n : BitVec 8} {x : Word64} {s t : State}
    (h : acceptBlock dir n x s = .next t) :
    t.phase = if n = 64 ∧ s.kvalid = true then .blk else s.phase := by
  by_cases hn : n = 64
  · subst hn
    cases hk : s.kvalid with
    | true => rw [acceptBlock_start dir x hk] at h; cases h; simp
    | false => rw [acceptBlock_notReady dir x hk] at h; cases h; simp
  · rw [acceptBlock_badLength dir x s hn] at h; cases h; exact (if_neg fun hs => hn hs.1).symm

/-- The phase an accept micro-step in IDLE leads to, for every command (R31, R80). -/
theorem exec_phase {i : Instr} {s t : State} (hp : s.phase = .idle) (h : exec i s = .next t) :
    t.phase =
      if i.op = 1 ∧ i.dlen = 64 ∧ s.kvalid = false then .ks
      else if (i.op = 2 ∨ i.op = 3) ∧ i.dlen = 64 ∧ s.kvalid = true then .blk else .idle := by
  cases i with
  | loadkey n x => simpa [Instr.op, Instr.dlen, hp] using execLoadkey_phase h
  | enc n x => simpa [Instr.op, Instr.dlen, hp] using acceptBlock_phase h
  | dec n x => simpa [Instr.op, Instr.dlen, hp] using acceptBlock_phase h
  | clear n x => cases h; rfl
  | nop n x => cases h; exact hp
  | reserved5 n x => cases h; exact hp
  | reserved6 n x => cases h; exact hp
  | reserved7 n x => cases h; exact hp

/-- Settles O49, from what a step can do in each phase and the phase each command starts. -/
theorem phaseTransitions : Obligations.PhaseTransitions := by
  refine ⟨⟨rfl, rfl, rfl, rfl⟩, fun s t h hrst => ?_⟩
  obtain ⟨hr, -⟩ | ⟨-, hp, ho, rfl⟩ | ⟨-, hp, w, ho, hx⟩ | ⟨-, hp, hn, c, d, -, -, rfl⟩ |
    ⟨-, hp, hn, l, r, dir, k, -, -, -, -, rfl⟩ | ⟨-, hp, l, r, -, -, rfl⟩ := step_cases h
  · simp [hrst] at hr
  all_goals simp only [hp]
  · simp [hp, ho]
  · rw [exec_phase (s := nextDrive s) hp hx, decode_op, decode_dlen, nextDrive_kvalid]
    simp only [ho, Option.some.injEq, exists_eq_left']
    split_ifs with hks hblk
    · have ⟨_, _, hfree⟩ := hks
      exact ⟨iff_of_true rfl hks, iff_of_false nofun fun ⟨_, _, hkey⟩ => by simp [hfree] at hkey, nofun⟩
    · exact ⟨iff_of_false nofun hks, iff_of_true rfl hblk, nofun⟩
    · exact ⟨iff_of_false nofun hks, iff_of_false nofun hblk, nofun⟩
  · simp [hp, toNat_eq_fifteen_iff]
  · simp [hp, toNat_eq_fifteen_iff]
  · rfl

end Sys2Proof.Machine
end

section
/-! A block command run from a ready block: its response is `Crypt` of the round keys in the direction's order, so
it depends on nothing else (20_memory.md R62; 42_round_engine.md R144). -/

namespace Sys2Proof.Machine

/-- A command's own word decodes to it (R70, R73). -/
@[simp] theorem decode_encode (i : Instr) : decode (encode i) = i := by
  have fields : opField (encode i) = i.op ∧ dlenField (encode i) = i.dlen ∧ dataField (encode i) = i.data :=
    fields_of_append _ _ _
  obtain ⟨hop, hdlen, hdata⟩ := fields
  rw [decode, hop, hdlen, hdata]
  cases i <;> rfl

/-- ENC or DEC of a 64-bit operand, by direction. -/
def blockCommand (dir : Dir) (x : Word64) : Instr :=
  match dir with
  | .encrypt => .enc 64 x
  | .decrypt => .dec 64 x

theorem exists_blockCommand {i : Instr} {x : Word64} (h : i = .enc 64 x ∨ i = .dec 64 x) :
    ∃ dir, i = blockCommand dir x := by
  obtain rfl | rfl := h
  · exact ⟨.encrypt, rfl⟩
  · exact ⟨.decrypt, rfl⟩

theorem exec_blockCommand (dir : Dir) (x : Word64) {s : State} (h : s.kvalid = true) :
    exec (blockCommand dir x) s = .next (startBlock dir x s) := by
  rw [← acceptBlock_start dir x h]
  cases dir <;> rfl

/-- A ready block accepts an offered ENC or DEC and starts it (R130 to R133). -/
theorem step_blockCommand {s : State} {ks : Vector Word48 16} {dir : Dir} {x : Word64} {rest : List Drive}
    (hs : Ready ks s) (hhost : s.host = .offer (encode (blockCommand dir x)) :: rest) :
    step s = .next (startBlock dir x (nextDrive s)) := by
  have hrst : rstAsserted s = false := by simp [rstAsserted, hhost]
  have hoffer : offered s = some (encode (blockCommand dir x)) := by simp [offered, hhost]
  rw [step_accept hrst hs.idle hoffer, decode_encode, exec_blockCommand dir x (s := nextDrive s) hs.valid]

/-- The response of an ENC or DEC that is done (R146): a function of the round keys, the direction and the block. -/
def blockResponse (ks : Vector Word48 16) (dir : Dir) (x : Word64) : Response :=
  { status := .ok, hasData := true, data := crypt (keysFor dir ks) x }

/-- An ENC or DEC from a ready block, accept to response (R144). -/
theorem run_blockCommand {s : State} {ks : Vector Word48 16} {dir : Dir} {x : Word64} {rest : List Drive}
    (hs : Ready ks s) (hrest : holds rest) (hhost : s.host = .offer (encode (blockCommand dir x)) :: rest) :
    ∃ l r, run 18 s = .next { s with
      l := l, r := r, dir := some dir, rnd := 16, resp := s.resp ++ [blockResponse ks dir x], host := rest } := by
  have htail : s.host.tail = rest := by rw [hhost, List.tail_cons]
  have hheld : holds (startBlock dir x (nextDrive s)).host := by rwa [startBlock_host, nextDrive_host, htail]
  obtain ⟨l, r, hrun⟩ := run_blk_all (x := x) hheld rfl rfl rfl rfl rfl hs.keys
  refine ⟨some l, some r, ?_⟩
  rw [run_succ 17 (step_blockCommand hs hhost), hrun, ← hs.idle, ← htail]
  rfl

/-- Settles O38: from both states the response is `blockResponse` of the shared keys, the direction and the data. -/
theorem blocksAreIndependent : Obligations.BlocksAreIndependent := by
  intro s s' ks i x hs hs' hi hhost hhost'
  obtain ⟨dir, rfl⟩ := exists_blockCommand hi
  obtain ⟨l, r, hrun⟩ := run_blockCommand hs (.inl rfl) hhost
  obtain ⟨l', r', hrun'⟩ := run_blockCommand hs' (.inl rfl) hhost'
  exact ⟨_, _, blockResponse ks dir x, hrun, hrun', rfl, rfl, rfl, rfl⟩

end Sys2Proof.Machine
end

section
/-! The command format (30_encoding.md): which row of the opcode table a word matches (R71, R73), what its accept
micro-step does (R80), and the fields a command ignores (R82). -/

namespace Sys2Proof.Machine

@[simp] theorem decode_data (w : CommandWord) : (decode w).data = dataField w := by
  unfold decode; split_ifs <;> rfl

/-! ### The opcode table (R71, R73) -/

/-- Every row of the opcode table looks at `op` and at no other bit (R71). -/
theorem opcodeRows_mask : ∀ row ∈ opcodeRows, row.2.1 = 7 <<< 72 := by decide

/-- What the table's mask leaves of a word is its `op`, in place. -/
theorem toNat_and_opcodeMask (w : CommandWord) : w.toNat &&& 7 <<< 72 = (opField w).toNat <<< 72 := by
  have hmask (i : Nat) : (7 <<< 72).testBit i = (decide (72 ≤ i) && decide (i - 72 < 3)) := by
    rw [Nat.testBit_shiftLeft, show 7 = 2 ^ 3 - 1 from rfl, Nat.testBit_two_pow_sub_one]
  refine Nat.eq_of_testBit_eq fun i => ?_
  rw [Nat.testBit_and, hmask, Nat.testBit_shiftLeft, opField, BitVec.testBit_toNat, BitVec.testBit_toNat,
    BitVec.getLsbD_extractLsb']
  by_cases hi : 72 ≤ i
  · rw [Nat.add_sub_cancel' hi, Bool.and_comm, Bool.and_assoc]
  · simp [hi]

/-- The rows that match a command's `op` are one, the command's own (R73). -/
theorem opcodeRows_of_op (i : Instr) :
    (opcodeRows.filter fun row => i.op.toNat <<< 72 == row.2.2).map (·.1) = [i.mnemonic] := by
  cases i <;> simp [opcodeRows, Instr.op, Instr.mnemonic]

theorem mnemonic_eq_of_op_eq {i j : Instr} (h : i.op = j.op) : i.mnemonic = j.mnemonic := by
  rw [← List.singleton_inj, ← opcodeRows_of_op, h, opcodeRows_of_op]

/-- The rows that match a word are one, the decoded command's (R71, R73). -/
theorem opcodeRows_of_word (w : CommandWord) :
    (opcodeRows.filter fun row => w.toNat &&& row.2.1 == row.2.2).map (·.1) = [(decode w).mnemonic] := by
  rw [← opcodeRows_of_op (decode w), decode_op]
  refine congrArg (List.map _) (List.filter_congr fun row hrow => ?_)
  rw [opcodeRows_mask row hrow, toNat_and_opcodeMask]

/-- Settles O2: the mask of every row picks `op`, and the rows that match an `op` are one, which names the mnemonic. -/
theorem opSelectsCommand : Obligations.OpSelectsCommand := fun w =>
  ⟨decode_op w, decode_dlen w, decode_data w, opcodeRows_of_word w, fun v (hop : opField v = opField w) =>
    mnemonic_eq_of_op_eq (by rw [decode_op, decode_op, hop])⟩

/-! ### The accept micro-step (R80) -/

/-- An idle block accepts the word offered, held or for one micro-step, and the host moves past it (R80, R222). -/
theorem step_offered {s : State} {w : CommandWord} {rest : List Drive} (hidle : s.phase = .idle)
    (hhost : s.host = .offer w :: rest ∨ s.host = .offerOnce w :: rest) :
    step s = exec (decode w) { s with host := rest } := by
  have hrst : rstAsserted s = false := by obtain h | h := hhost <;> simp [rstAsserted, h]
  have hoffer : offered s = some w := by obtain h | h := hhost <;> simp [offered, h]
  have htail : s.host.tail = rest := by obtain h | h := hhost <;> simp [h]
  rw [step_accept hrst hidle hoffer, nextDrive, htail]

/-- Settles O10: the step is `exec` of the decoded command, whose `op` says which of the tests are passed. -/
theorem acceptTestsInOrder : Obligations.AcceptTestsInOrder := by
  intro w s rest hidle hhost op dlen data u
  rw [step_offered hidle hhost, show op = (decode w).op from (decode_op w).symm,
    show dlen = (decode w).dlen from (decode_dlen w).symm, show data = (decode w).data from (decode_data w).symm]
  cases decode w with
  | nop n x => exact execNop_eq u
  | loadkey n x => exact execLoadkey_eq n x u
  | enc n x => exact acceptBlock_eq .encrypt n x u
  | dec n x => exact acceptBlock_eq .decrypt n x u
  | clear n x => exact execClear_eq u
  | reserved5 n x => exact raise_eq .illegalCommand u
  | reserved6 n x => exact raise_eq .illegalCommand u
  | reserved7 n x => exact raise_eq .illegalCommand u

/-! ### Ignored fields (R82) -/

/-- PC1 reads the 56 key positions and no parity position (R95, R107 d). -/
theorem romRead_pc1 (i : Nat) (h1 : 1 ≤ i) (h2 : i ≤ 56) :
    1 ≤ romRead Rom.pc1 i ∧ romRead Rom.pc1 i ≤ 64 ∧ romRead Rom.pc1 i % 8 ≠ 0 := by
  have hall : ∀ p ∈ Rom.pc1.entries.toList, 1 ≤ p ∧ p ≤ 64 ∧ p % 8 ≠ 0 := by decide
  rw [romRead_eq Rom.pc1 i h1 h2]
  exact hall _ (Vector.mem_toList_iff.mpr (Vector.getElem_mem _))

/-- Two keys agree in every position that is no parity position (R119). -/
def AgreeOffParity (k k' : Word64) : Prop := ∀ p, 1 ≤ p → p ≤ 64 → p % 8 ≠ 0 → pos k p = pos k' p

theorem AgreeOffParity.permute_pc1 {k k' : Word64} (h : AgreeOffParity k k') :
    permute Rom.pc1 k = permute Rom.pc1 k' :=
  eq_of_pos fun i h1 h2 => by
    obtain ⟨hlow, hhigh, hkey⟩ := romRead_pc1 i h1 h2
    rw [pos_permute _ _ _ h1 h2, pos_permute _ _ _ h1 h2, h _ hlow hhigh hkey]

/-- The key schedule reads its key through PC1 only (R111, R118). -/
theorem keySchedule_congr {k k' : Word64} (h : permute Rom.pc1 k = permute Rom.pc1 k') :
    keySchedule k = keySchedule k' := by
  have hhalves (n : Nat) : keyHalves k n = keyHalves k' n := by
    rw [keyHalves_eq k, keyHalves_eq k', keyHalves, keyHalves, h]
  simp only [keySchedule, roundKey, hhalves]

/-- Settles O19: the control commands' meanings take no field, a wrong length refuses before `data` is read, and PC1
reads no parity position. -/
theorem unusedFieldsIgnored : Obligations.UnusedFieldsIgnored := by
  refine ⟨fun s n m x y => ⟨rfl, rfl, rfl, rfl, rfl⟩, fun s n x y hn => ⟨?_, ?_, ?_⟩, fun k k' h => ?_⟩
  · exact (execLoadkey_badLength x s hn).trans (execLoadkey_badLength y s hn).symm
  · exact (acceptBlock_badLength .encrypt x s hn).trans (acceptBlock_badLength .encrypt y s hn).symm
  · exact (acceptBlock_badLength .decrypt x s hn).trans (acceptBlock_badLength .decrypt y s hn).symm
  · exact keySchedule_congr (AgreeOffParity.permute_pc1 h)

end Sys2Proof.Machine
end

section
/-! The key scheduler (41_key_scheduler.md): the halves LOADKEY selects (R111, R112) and the key-schedule round
micro-step (R113). -/

namespace Sys2Proof.Machine

/-! ### The accept micro-step of LOADKEY (R111, R112) -/

/-- `X<1>, ..., X<w>`: the positions of a value in order, from the left (00_scope.md 6.1). -/
def posList {w : Nat} (x : BitVec w) : List Bool := (List.range w).map fun k => pos x (k + 1)

theorem length_posList {w : Nat} (x : BitVec w) : (posList x).length = w := by simp [posList]

/-- The positions of two values side by side. -/
theorem posList_append {a b : Nat} (x : BitVec a) (y : BitVec b) : posList (x ++ y) = posList x ++ posList y := by
  simp only [posList, List.range_add, List.map_append, List.map_map]
  congr 1 <;> refine List.map_congr_left fun k hk => ?_
  · exact pos_append_left x y (Nat.le_add_left 1 k) (List.mem_range.mp hk)
  · exact pos_append_right x y (Nat.le_add_left 1 k)

/-- `Permute` lists the positions its table lists (R5). -/
theorem posList_permute {lin lout : Nat} (T : PermTable lin lout) (x : BitVec lin) :
    posList (permute T x) = T.entries.toList.map (pos x) := by
  refine List.ext_getElem (by simp [posList]) fun k hk _ => ?_
  have hlt : k < lout := by rwa [length_posList] at hk
  simp [posList, pos_permute T x (k + 1) (by omega) hlt, romRead_eq T (k + 1) (by omega) hlt]

/-- Settles O14: `C` and then `D` list the entries of PC1, so each lists the 28 of its own side. -/
theorem loadkeyStartsSchedule : Obligations.LoadkeyStartsSchedule := by
  intro s data hfree
  have hlist : posList (leftKeyHalf (permute Rom.pc1 data)) ++ posList (rightKeyHalf (permute Rom.pc1 data)) =
      Rom.pc1.entries.toList.map (pos data) := by
    rw [← posList_append, ← joinKey, joinKey_halves, posList_permute]
  exact ⟨_, _, execLoadkey_start data hfree, List.append_inj hlist (length_posList _)⟩

/-! ### The key-schedule round micro-step (R113) -/

/-- What key-schedule round `RND + 1` leaves, register by register (R113, R115). -/
theorem ksRoundState_eq (s : State) (i : Fin 16) (c d : Word28) (hrnd : s.rnd.toNat = i.val) :
    ksRoundState s i c d =
      let c' := rotl28 c (romReadShift (i.val + 1))
      let d' := rotl28 d (romReadShift (i.val + 1))
      { s with
        c := some c'
        d := some d'
        rk := s.rk.set i (some (permute Rom.pc2 (joinKey c' d')))
        rnd := BitVec.ofNat 5 (i.val + 1)
        kvalid := s.kvalid || i.val == 15
        phase := if i.val = 15 then .idle else s.phase
        resp := if i.val = 15 then s.resp ++ [doneResponse] else s.resp } := by
  have hcount : s.rnd + 1 = BitVec.ofNat 5 (i.val + 1) := by rw [← hrnd]; simp [BitVec.ofNat_add]
  unfold ksRoundState
  by_cases hlast : i.val = 15
  · simp only [if_pos hlast, beq_iff_eq.mpr hlast, hcount, Bool.or_true]; rfl
  · simp only [if_neg hlast, beq_false_of_ne hlast, hcount, Bool.or_false]; rfl

/-- A step in phase KS without `rst`, whatever the host drives, is one key-schedule round (R40, R113). -/
theorem step_ks_of_not_rst {s : State} {c d : Word28} (hrst : rstAsserted s = false) (hp : s.phase = .ks)
    (hr : s.rnd.toNat < 16) (hc : s.c = some c) (hd : s.d = some d) :
    step s = .next (ksRoundState (afterNoAccept s) ⟨s.rnd.toNat, hr⟩ c d) := by
  rw [step_busy hrst (by simp [hp])]
  simp [coreMicroStep, hp, ksRound, hr, hc, hd]

/-- Settles O20, from the registers a round leaves and the position rules of rotation and of `Permute`. -/
theorem keyScheduleRoundEffect : Obligations.KeyScheduleRoundEffect := by
  intro s c d hr hp hc hd hrst
  refine ⟨_, _, _, fun p h1 h2 => ⟨pos_rotl28 c _ p h1 h2, pos_rotl28 d _ p h1 h2⟩, pos_permute Rom.pc2 _, ?_⟩
  rw [step_ks_of_not_rst hrst hp hr hc hd, ksRoundState_eq _ _ c d (by simp)]
  simp [hp, joinKey]

end Sys2Proof.Machine
end

section
/-! The round engine (42_round_engine.md): the start of a block from the initial permutation (R131, R132), the Feistel
round micro-step (R134, R142) and its cyclic expansion (R136), and the final micro-step (R146). -/

namespace Sys2Proof.Machine

/-! ### The two tables in closed form (R91, R92) -/

/-- Each row of IP takes one position of the eight bytes, the last byte first: the even positions in rows 0 to 3, the
odd ones in rows 4 to 7 (R91). -/
theorem romRead_ip (row col : Fin 8) :
    romRead Rom.ip (8 * row.val + col.val + 1) = 8 * (7 - col.val) + [2, 4, 6, 8, 1, 3, 5, 7].getD row.val 0 := by
  revert row col; decide

/-- Group j of E starts one position before its four own ones and ends one after them, cyclically; j and the place m
from 0 (R92). -/
theorem romRead_e (j : Fin 8) (m : Fin 6) :
    romRead Rom.e (6 * j.val + (m.val + 1)) = (4 * j.val + m.val + 31) % 32 + 1 := by
  revert j m; decide

/-- Settles O26: `Permute` reads the entry of E, whose closed form is the cyclic position. -/
theorem expansionIsCyclic : Obligations.ExpansionIsCyclic := by
  intro r j m hj1 hj8 hm1 hm6
  obtain ⟨j, rfl⟩ := Nat.exists_eq_add_of_le' hj1
  obtain ⟨m, rfl⟩ := Nat.exists_eq_add_of_le' hm1
  have hentry : romRead Rom.e (6 * j + (m + 1)) = (4 * j + m + 31) % 32 + 1 :=
    romRead_e ⟨j, hj8⟩ ⟨m, hm6⟩
  have hsame : 4 * (j + 1) + (m + 1) + 26 = 4 * j + m + 31 := by omega
  rw [Nat.add_sub_cancel, pos_permute _ _ _ (by omega) (by omega), hentry, hsame]

/-! ### The accept micro-step of ENC and DEC (R131, R132) -/

/-- Settles O16: the halves side by side are the initial permutation, whose table has the closed form. -/
theorem blockCommandsStart : Obligations.BlockCommandsStart := by
  intro s data hkey
  refine ⟨_, _, acceptBlock_start .encrypt data hkey, acceptBlock_start .decrypt data hkey, fun row col => ?_⟩
  rw [← joinBlock, joinBlock_halves, pos_permute _ _ _ (by omega) (by omega), romRead_ip]

/-! ### The Feistel round micro-step (R134, R142) -/

/-- What Feistel round `RND` leaves, register by register (R134, R140, R141). -/
theorem feistelRoundState_eq (s : State) (i : Fin 16) (l r : Word32) (k : Word48) (hrnd : s.rnd.toNat = i.val) :
    feistelRoundState s i l r k =
      let t := feistelF r k ^^^ l
      { s with
        l := if i.val < 15 then some r else some t
        r := if i.val < 15 then some t else s.r
        rnd := BitVec.ofNat 5 (i.val + 1)
        phase := if i.val = 15 then .fin else s.phase } := by
  have hcount : s.rnd + 1 = BitVec.ofNat 5 (i.val + 1) := by rw [← hrnd]; simp [BitVec.ofNat_add]
  unfold feistelRoundState
  by_cases hswap : i.val < 15
  · have hlast : i.val ≠ 15 := by omega
    simp only [if_pos hswap, if_neg hlast, hcount]
  · have hlast : i.val = 15 := by omega
    simp only [if_neg hswap, if_pos hlast, hcount]

/-- The round-key index of a direction, by its value (R142). -/
theorem eq_roundKeyIndex {dir : Dir} {i j : Fin 16} (henc : dir = .encrypt → j.val = i.val)
    (hdec : dir = .decrypt → j.val = 15 - i.val) : j = roundKeyIndex dir i := by
  cases dir with
  | encrypt => exact Fin.ext (henc rfl)
  | decrypt => exact Fin.ext (hdec rfl)

/-- A step in phase BLK without `rst`, whatever the host drives, is one Feistel round (R40, R134). -/
theorem step_blk_of_not_rst {s : State} {l r : Word32} {dir : Dir} {k : Word48} (hrst : rstAsserted s = false)
    (hp : s.phase = .blk) (hi : s.rnd.toNat < 16) (hl : s.l = some l) (hr : s.r = some r) (hd : s.dir = some dir)
    (hk : s.rk[roundKeyIndex dir ⟨s.rnd.toNat, hi⟩] = some k) :
    step s = .next (feistelRoundState (afterNoAccept s) ⟨s.rnd.toNat, hi⟩ l r k) := by
  rw [step_busy hrst (by simp [hp])]
  simp only [coreMicroStep, feistelRound, readRk, afterNoAccept_phase, afterNoAccept_rnd, afterNoAccept_l,
    afterNoAccept_r, afterNoAccept_dir, afterNoAccept_rk, hp, hi, dif_pos, hl, hr, hd, hk, withReg_some]

/-- Settles O21: the round key is the one of the direction's index, and the round leaves these registers. -/
theorem feistelRoundEffect : Obligations.FeistelRoundEffect := by
  intro s l r dir j k hp hi hl hr hd henc hdec hk hrst
  have hj : j = roundKeyIndex dir ⟨s.rnd.toNat, hi⟩ := eq_roundKeyIndex henc hdec
  rw [step_blk_of_not_rst hrst hp hi hl hr hd (hj ▸ hk), feistelRoundState_eq _ _ l r k (by simp)]
  simp [hp, hr, feistelF]

/-! ### The final micro-step (R146) -/

/-- A step in phase FIN without `rst`, whatever the host drives, answers the final permutation (R40, R146). -/
theorem step_fin_of_not_rst {s : State} {l r : Word32} (hrst : rstAsserted s = false) (hp : s.phase = .fin)
    (hl : s.l = some l) (hr : s.r = some r) :
    step s = .next (respond { afterNoAccept s with phase := .idle } .ok (some (permute Rom.fp (joinBlock l r)))) := by
  rw [step_busy hrst (by simp [hp])]
  simp only [coreMicroStep, finalStep, afterNoAccept_phase, afterNoAccept_l, afterNoAccept_r, hp, hl, hr, withReg_some]

/-- Settles O22, from the final micro-step and the position rule of `Permute`. -/
theorem finalMicroStepResponds : Obligations.FinalMicroStepResponds := by
  intro s l r hp hl hr hrst
  refine ⟨_, pos_permute Rom.fp _, ?_⟩
  rw [step_fin_of_not_rst hrst hp hl hr]
  simp [respond, mkResponse, joinBlock]

end Sys2Proof.Machine
end

section
/-! The control commands (43_control_commands.md): NOP (R160), CLEAR (R162) and the reserved opcodes (R164). Their
meanings are one law each of the shared operations; none reads a field or tests a register. -/

namespace Sys2Proof.Machine

/-- Settles O11: NOP is one response to any state. -/
theorem nopOnlyResponds : Obligations.NopOnlyResponds := fun s _ _ => execNop_eq s

/-- Settles O12: the state CLEAR leaves is the reset state with the responses and the host's drives kept. -/
theorem clearDiscardsInstance : Obligations.ClearDiscardsInstance := fun s _ _ => execClear_eq s

/-- The three reserved opcodes have one meaning, a refusal with `IllegalCommand` (R164). -/
theorem exec_reserved {i : Instr} {dlen : BitVec 8} {data : Word64} (s : State)
    (h : i = .reserved5 dlen data ∨ i = .reserved6 dlen data ∨ i = .reserved7 dlen data) :
    exec i s = .next (refusedState .illegalCommand s) := by
  rw [← raise_eq]
  obtain rfl | rfl | rfl := h <;> rfl

/-- `IllegalCommand` is bit 7 of the error log (R197). -/
theorem illegalCommand_logBit : 1#8 <<< ErrorName.illegalCommand.code = 0x80#8 := by decide

/-- Settles O13: a refusal sets its error's bit of the log, here bit 7, and answers the error. -/
theorem reservedRaisesIllegalCommand : Obligations.ReservedRaisesIllegalCommand := by
  intro s dlen data i h
  rw [exec_reserved s h, refusedState, illegalCommand_logBit]

end Sys2Proof.Machine
end

section
/-! The errors of the block (60_exceptions.md R192 to R197): which commands are refused and with what, and that a
refusal is the only way to an error response. -/

namespace Sys2Proof.Machine

/-- In the state `s` the command is refused with the error (R193 to R197). A wrong length comes before the lifecycle
error (R201), so the lifecycle errors ask for `dlen = 64`. -/
inductive RefusedWith (s : State) : ErrorName → Instr → Prop where
  /-- R193. -/
  | invalidKeyLength {n : BitVec 8} {x : Word64} (hn : n ≠ 64) : RefusedWith s .invalidKeyLength (.loadkey n x)
  /-- R196. -/
  | keyLocked {x : Word64} (hk : s.kvalid = true) : RefusedWith s .keyLocked (.loadkey 64 x)
  /-- R194. -/
  | lengthMismatch {i : Instr} {n : BitVec 8} {x : Word64} (hi : i = .enc n x ∨ i = .dec n x) (hn : n ≠ 64) :
    RefusedWith s .lengthMismatch i
  /-- R195. -/
  | keyNotReady {i : Instr} {x : Word64} (hi : i = .enc 64 x ∨ i = .dec 64 x) (hk : s.kvalid = false) :
    RefusedWith s .keyNotReady i
  /-- R197. -/
  | illegalCommand {i : Instr} {n : BitVec 8} {x : Word64}
    (hi : i = .reserved5 n x ∨ i = .reserved6 n x ∨ i = .reserved7 n x) : RefusedWith s .illegalCommand i

theorem RefusedWith.raisedByBlock {s : State} {e : ErrorName} {i : Instr} (h : RefusedWith s e i) :
    e.raisedByBlock = true := by
  cases h <;> rfl

/-- ENC and DEC are the shared checks with a direction (R80). -/
theorem exec_eq_acceptBlock {i : Instr} {n : BitVec 8} {x : Word64} (h : i = .enc n x ∨ i = .dec n x) :
    ∃ dir, ∀ s, exec i s = acceptBlock dir n x s := by
  obtain rfl | rfl := h
  · exact ⟨.encrypt, fun _ => rfl⟩
  · exact ⟨.decrypt, fun _ => rfl⟩

/-- A refused command leaves one log bit and one response (R192). -/
theorem RefusedWith.exec_eq {s : State} {e : ErrorName} {i : Instr} (h : RefusedWith s e i) :
    exec i s = .next (refusedState e s) := by
  cases h with
  | invalidKeyLength hn => exact execLoadkey_badLength _ s hn
  | keyLocked hk => exact execLoadkey_locked _ hk
  | lengthMismatch hi hn =>
    obtain ⟨dir, heq⟩ := exec_eq_acceptBlock hi
    rw [heq, acceptBlock_badLength dir _ s hn]
  | keyNotReady hi hk =>
    obtain ⟨dir, heq⟩ := exec_eq_acceptBlock hi
    rw [heq, acceptBlock_notReady dir _ hk]
  | illegalCommand hi => exact exec_reserved s hi

/-- Settles O15: the two refusals of LOADKEY, and the start of a key schedule, which logs and answers nothing. -/
theorem loadkeyRefusals : Obligations.LoadkeyRefusals := by
  intro s n x
  refine ⟨fun hn => (RefusedWith.invalidKeyLength hn).exec_eq, ?_, ?_⟩
  · rintro rfl hk
    exact (RefusedWith.keyLocked hk).exec_eq
  · rintro rfl hk
    exact ⟨startKeySchedule x s, execLoadkey_start x hk, rfl, rfl⟩

/-- ENC or DEC with a key loaded and a 64-bit operand starts a block and is not refused (R131, R132). -/
theorem exec_startBlock {i : Instr} {x : Word64} {s : State} (hi : i = .enc 64 x ∨ i = .dec 64 x)
    (hk : s.kvalid = true) : ∃ dir, exec i s = .next (startBlock dir x s) := by
  obtain ⟨dir, rfl⟩ := exists_blockCommand hi
  exact ⟨dir, exec_blockCommand dir x hk⟩

/-- A command that is not refused answers nothing yet, or a success (R192). -/
theorem exec_succeeds_of_not_refused {i : Instr} {s t : State} (h : exec i s = .next t)
    (hnot : ∀ e, ¬ RefusedWith s e i) : t.resp = s.resp ∨ t.resp = s.resp ++ [doneResponse] := by
  have block {n : BitVec 8} {x : Word64} (hi : i = .enc n x ∨ i = .dec n x) : t.resp = s.resp := by
    obtain rfl : n = 64 := by_contra fun hn => hnot _ (.lengthMismatch hi hn)
    have hk : s.kvalid = true := eq_true_of_ne_false fun hk => hnot _ (.keyNotReady hi hk)
    obtain ⟨dir, hstart⟩ := exec_startBlock hi hk
    rw [hstart] at h
    cases h
    rfl
  cases i with
  | nop n x => cases h; exact .inr rfl
  | loadkey n x =>
    obtain rfl : n = 64 := by_contra fun hn => hnot _ (.invalidKeyLength hn)
    have hk : s.kvalid = false := eq_false_of_ne_true fun hk => hnot _ (.keyLocked hk)
    rw [exec, execLoadkey_start x hk] at h
    cases h
    exact .inl rfl
  | enc n x => exact .inl (block (.inl rfl))
  | dec n x => exact .inl (block (.inr rfl))
  | clear n x => cases h; exact .inr rfl
  | reserved5 n x => exact absurd (.illegalCommand (.inl rfl)) (hnot .illegalCommand)
  | reserved6 n x => exact absurd (.illegalCommand (.inr (.inl rfl))) (hnot .illegalCommand)
  | reserved7 n x => exact absurd (.illegalCommand (.inr (.inr rfl))) (hnot .illegalCommand)

/-- An accept micro-step answers an error only by refusing the command with it (R192). -/
theorem refusedWith_of_error {i : Instr} {s t : State} {r : Response} {e : ErrorName} (h : exec i s = .next t)
    (hr : t.resp = s.resp ++ [r]) (he : r.status = .error e) : RefusedWith s e i := by
  by_cases hnot : ∀ e, ¬ RefusedWith s e i
  · obtain hresp | hresp := exec_succeeds_of_not_refused h hnot
    · simp [hresp] at hr
    · obtain rfl : doneResponse = r := by simpa [hresp] using hr
      cases he
  · obtain ⟨e', hrefused⟩ := not_forall_not.mp hnot
    obtain rfl : refusedState e' s = t := by simpa [hrefused.exec_eq] using h
    obtain rfl : _ = r := by simpa using hr
    cases he
    exact hrefused

/-- Settles O17: the two refusals of ENC and DEC, the start of a block, and conversely what these two errors say of
the command they answer. -/
theorem blockCommandRefusals : Obligations.BlockCommandRefusals := by
  refine ⟨fun s n x i hi => ⟨fun hn => (RefusedWith.lengthMismatch hi hn).exec_eq, ?_, ?_⟩, ?_⟩
  · rintro rfl hk
    exact (RefusedWith.keyNotReady hi hk).exec_eq
  · rintro rfl hk
    obtain ⟨dir, hstart⟩ := exec_startBlock hi hk
    exact ⟨startBlock dir x s, hstart, rfl, rfl⟩
  · intro i s t r h hr
    constructor
    · intro he
      cases refusedWith_of_error h hr he with
      | lengthMismatch hi hn => obtain rfl | rfl := hi <;> simpa [Instr.op, Instr.dlen] using hn
    · intro he
      cases refusedWith_of_error h hr he with
      | keyNotReady hi hk => obtain rfl | rfl := hi <;> simpa [Instr.op, Instr.dlen] using hk

/-- A busy block's own micro-step logs nothing and answers, if anything, a success (R192). -/
theorem succeeds_of_busy {s t : State} (hp : s.phase ≠ .idle) (hrst : rstAsserted s = false)
    (h : step s = .next t) : Succeeds s t := by
  obtain ⟨hr, -⟩ | ⟨-, hidle, -⟩ | ⟨-, hidle, -⟩ | ⟨-, -, hn, c, d, -, -, rfl⟩ |
    ⟨-, -, hn, l, r, dir, k, -, -, -, -, rfl⟩ | ⟨-, -, l, r, -, -, rfl⟩ := step_cases h
  · simp [hrst] at hr
  · exact absurd hidle hp
  · exact absurd hidle hp
  · refine ⟨by simp, ?_⟩
    rw [ksRoundState_resp, afterNoAccept_resp]
    split
    · exact .inr ⟨doneResponse, rfl, rfl⟩
    · exact .inl rfl
  · exact ⟨by simp, .inl (by simp)⟩
  · exact ⟨by simp, .inr ⟨mkResponse .ok (some (permute Rom.fp (joinBlock l r))), rfl, by simp⟩⟩

/-- Settles O18: an error response comes from a refusal, whose state is `refusedState`; a busy block raises none. -/
theorem errorsArePrecise : Obligations.ErrorsArePrecise := by
  refine ⟨fun i s t r e h hr he => ?_, fun s t hp hrst h => ?_⟩
  · have hrefused := refusedWith_of_error h hr he
    obtain rfl : refusedState e s = t := by simpa [hrefused.exec_eq] using h
    obtain rfl : _ = r := by simpa using hr
    exact ⟨hrefused.raisedByBlock, rfl, rfl, rfl⟩
  · obtain ⟨hlog, hresp⟩ := succeeds_of_busy hp hrst h
    exact ⟨hlog, hresp.imp_right fun ⟨r, hok, hr⟩ => ⟨r, hr, hok⟩⟩

end Sys2Proof.Machine
end

section
/-! The command and response words (30_encoding.md): decoding and encoding are inverse to each other (R70, R71), and a
response reads back from its word (R70, R76). -/

namespace Sys2Proof.Machine

/-- A word is encoded again from the fields its command carries: no bit is dropped (R70, R82). -/
@[simp] theorem encode_decode (w : CommandWord) : encode (decode w) = w := by
  rw [encode, decode_op, decode_dlen, decode_data, append_of_fields]

/-- Settles O1: a command is rebuilt from its word's fields, and a word from its command's fields. -/
theorem decodeEncodeInverse : Obligations.DecodeEncodeInverse := ⟨fun i _ => decode_encode i, encode_decode⟩

/-- A status code fits the three bits of its field (R76). -/
theorem Status.code_lt (st : Status) : st.code < 2 ^ 3 := by
  cases st with
  | ok => decide
  | error e => cases e <;> decide

/-- Every status reads back from its code (R76). -/
@[simp] theorem statusOfCode_code (st : Status) : statusOfCode (BitVec.ofNat 3 st.code) = st := by
  cases st with
  | ok => rfl
  | error e => cases e <;> rfl

/-- `status = resp[67:65]`. -/
theorem encodeResponse_status (r : Response) :
    (encodeResponse r).extractLsb' 65 3 = BitVec.ofNat 3 r.status.code := by
  show (BitVec.ofNat 3 r.status.code ++ BitVec.ofBool r.hasData ++ r.data).extractLsb' 65 3 = _
  rw [extract_append_left _ _ _ _ (by decide), extract_append_left _ _ _ _ (by decide)]
  exact extract_all _

/-- `has_data = resp[64]`. -/
theorem encodeResponse_hasData (r : Response) : (encodeResponse r).getLsbD 64 = r.hasData := by
  show (BitVec.ofNat 3 r.status.code ++ BitVec.ofBool r.hasData ++ r.data).getLsbD 64 = _
  rw [BitVec.getLsbD_append, if_neg (by decide), BitVec.getLsbD_append, if_pos (by decide), BitVec.getLsbD_ofBool]
  rfl

/-- `data = resp[63:0]`. -/
theorem encodeResponse_data (r : Response) : (encodeResponse r).extractLsb' 0 64 = r.data :=
  extract_right_append _ r.data

/-- Settles O4: decoding reads the three fields, and each field gives back what was put into it. -/
theorem responseWordLayout : Obligations.ResponseWordLayout := by
  intro r
  have hcode : ((encodeResponse r).extractLsb' 65 3).toNat = r.status.code := by
    rw [encodeResponse_status, BitVec.toNat_ofNat, Nat.mod_eq_of_lt r.status.code_lt]
  refine ⟨hcode, encodeResponse_hasData r, encodeResponse_data r, ?_⟩
  rw [decodeResponse, encodeResponse_status, encodeResponse_hasData, encodeResponse_data, statusOfCode_code]

/-- Settles O3: nine closed words, each decoded by evaluation. -/
theorem specWordsDecode : Obligations.SpecWordsDecode :=
  ⟨by decide, by decide, by decide, by decide, by decide, by decide, by decide, by decide, by decide⟩

end Sys2Proof.Machine
end

section
/-! The tables, the key schedule and `Crypt` as functions: the tables' structure (40_tables.md R94, R107), the
accumulated rotations (41_key_scheduler.md R114, R117), complements (R120, 42_round_engine.md R150), and `Crypt` with
reversed and with equal round keys (R147, R151). -/

namespace Sys2Proof.Machine

/-! ### The tables (R94, R107) -/

/-- IP and FP undo each other, entry by entry, and stay in range (R107 a). -/
theorem romRead_fp_ip : ∀ i, 1 ≤ i → i ≤ 64 →
    (1 ≤ romRead Rom.fp i ∧ romRead Rom.fp i ≤ 64 ∧ romRead Rom.ip (romRead Rom.fp i) = i) ∧
    (1 ≤ romRead Rom.ip i ∧ romRead Rom.ip i ≤ 64 ∧ romRead Rom.fp (romRead Rom.ip i) = i) := by decide

theorem permute_fp_ip (x : Word64) : permute Rom.fp (permute Rom.ip x) = x :=
  permute_permute_eq _ _ (fun i h1 h2 => (romRead_fp_ip i h1 h2).1) x

theorem permute_ip_fp (x : Word64) : permute Rom.ip (permute Rom.fp x) = x :=
  permute_permute_eq _ _ (fun i h1 h2 => (romRead_fp_ip i h1 h2).2) x

/-- Settles O28, from the entries of the two tables, each undone by the other. -/
theorem finalUndoesInitial : Obligations.FinalUndoesInitial := fun x => ⟨permute_fp_ip x, permute_ip_fp x⟩

/-- Settles O27: each property is about the finitely many entries of the tables. -/
theorem tableProperties : Obligations.TableProperties := by
  refine ⟨fun i h1 h2 => ?_, by decide, by decide, by decide, by decide, by decide, by decide, by decide⟩
  obtain ⟨⟨-, -, hip⟩, -, -, hfp⟩ := romRead_fp_ip i h1 h2
  exact ⟨hfp, hip⟩

/-! ### The accumulated rotations (R114, R117) -/

/-- `t(n)` in numbers (R114). -/
theorem totalShift_eq (n : Fin 16) :
    totalShift (n.val + 1) = [1, 2, 4, 6, 8, 10, 12, 14, 15, 17, 19, 21, 23, 25, 27, 28].getD n.val 0 := by
  revert n; decide

/-- A full turn is the identity (R117). -/
theorem rotl28_full (x : Word28) : rotl28 x 28 = x := by
  refine eq_of_pos fun k h1 h2 => ?_
  have hturn : (k - 1 + 28) % 28 + 1 = k := by omega
  rw [pos_rotl28 _ _ _ h1 h2, hturn]

/-- After sixteen rounds the halves are back at their values after PC1 (R117). -/
theorem keyHalves_sixteen (key : Word64) : keyHalves key 16 = keyHalves key 0 := by
  have hturn : totalShift 16 = 28 := totalShift_eq 15
  rw [keyHalves_eq, hturn, rotl28_full, rotl28_full]

/-- Settles O33: the rotations add up to a full turn, and the halves side by side are what PC1 gave. -/
theorem rotationsReturnHalves : Obligations.RotationsReturnHalves := by
  refine fun key => ⟨keyHalves_sixteen key, ?_⟩
  rw [getElem_keySchedule, roundKey, keyHalves_sixteen, keyHalves, joinKey_halves]

/-- PC2 takes its first 24 positions from C and the others from D (R107 e). -/
theorem romRead_pc2 : (∀ i, 1 ≤ i → i ≤ 24 → 1 ≤ romRead Rom.pc2 i ∧ romRead Rom.pc2 i ≤ 28) ∧
    ∀ i, 25 ≤ i → i ≤ 48 → 29 ≤ romRead Rom.pc2 i ∧ romRead Rom.pc2 i ≤ 56 := by decide

/-- Positions of `C ‖ D` after n rounds, in the halves after PC1 (R114, R118). -/
theorem pos_keyHalves (key : Word64) (n p : Nat) (h1 : 1 ≤ p) (h2 : p ≤ 28) :
    pos (keyHalves key n).1 p = pos (keyHalves key 0).1 ((p - 1 + totalShift n) % 28 + 1) ∧
    pos (keyHalves key n).2 p = pos (keyHalves key 0).2 ((p - 1 + totalShift n) % 28 + 1) := by
  rw [keyHalves_eq, pos_rotl28 _ _ _ h1 h2, pos_rotl28 _ _ _ h1 h2]
  exact ⟨rfl, rfl⟩

/-- Settles O32: PC2 reads a position of `C ‖ D`, which lies in its own half, where the rotations have brought it. -/
theorem keyScheduleBitwise : Obligations.KeyScheduleBitwise := by
  intro key n t c0 d0
  have ht : totalShift (n.val + 1) = t := totalShift_eq n
  rw [Fin.getElem_fin, getElem_keySchedule, roundKey]
  refine ⟨fun i h1 h2 => ?_, fun i h1 h2 => ?_⟩
  · obtain ⟨hlow, hhigh⟩ := romRead_pc2.1 i h1 h2
    obtain ⟨hc, -⟩ := pos_keyHalves key (n.val + 1) _ hlow hhigh
    rw [pos_permute _ _ _ h1 (by omega), joinKey, pos_append_left _ _ hlow hhigh, hc, ht]
    rfl
  · obtain ⟨hlow, hhigh⟩ := romRead_pc2.2 i h1 h2
    obtain ⟨-, hd⟩ := pos_keyHalves key (n.val + 1) (romRead Rom.pc2 i - 28) (by omega) (by omega)
    have hsub : romRead Rom.pc2 i - 28 - 1 = romRead Rom.pc2 i - 29 := by omega
    rw [pos_permute _ _ _ (by omega) h2, joinKey, pos_append _ _ _ (by omega), if_neg (by omega), hd, ht, hsub]
    rfl

/-! ### Complements (R120, R150) -/

/-- Cutting out a slice commutes with complement. -/
theorem extractLsb'_not {w : Nat} (x : BitVec w) (start len : Nat) (h : start + len ≤ w) :
    (~~~x).extractLsb' start len = ~~~x.extractLsb' start len := by
  refine eq_of_pos fun k h1 h2 => ?_
  rw [pos_extractLsb' _ _ _ _ h1 h2 h, pos_not _ _ (by omega) (by omega), pos_not _ _ h1 h2,
    pos_extractLsb' _ _ _ _ h1 h2 h]

theorem permute_pc1_not (key : Word64) : permute Rom.pc1 (~~~key) = ~~~permute Rom.pc1 key :=
  permute_not _ (by decide) key

/-- The halves of the complemented key are complemented in every round (R120). -/
theorem keyHalves_not (key : Word64) (n : Nat) :
    keyHalves (~~~key) n = (~~~(keyHalves key n).1, ~~~(keyHalves key n).2) := by
  induction n with
  | zero =>
    rw [keyHalves, permute_pc1_not]
    exact Prod.ext (extractLsb'_not _ 28 28 (by decide)) (extractLsb'_not _ 0 28 (by decide))
  | succ n ih => rw [keyHalves, ih, rotl28_not, rotl28_not, keyHalves]

theorem roundKey_not (key : Word64) (n : Nat) : roundKey (~~~key) n = ~~~roundKey key n := by
  rw [roundKey, keyHalves_not, joinKey, ← BitVec.not_append, permute_not _ (by decide)]
  rfl

/-- Settles O35: PC1, the rotations and PC2 move bits, so each commutes with complement. -/
theorem scheduleOfComplement : Obligations.ScheduleOfComplement := by
  intro key n
  rw [Fin.getElem_fin, Fin.getElem_fin, getElem_keySchedule, getElem_keySchedule, roundKey_not]

/-- Mixing the complemented half with the complemented round key takes both complements away (R150). -/
theorem feistelF_not_not (r : Word32) (k : Word48) : feistelF (~~~r) (~~~k) = feistelF r k := by
  rw [feistelF, permute_not _ (by decide), ← BitVec.not_xor_left, ← BitVec.not_xor_right, BitVec.not_not, feistelF]

/-- Both halves complemented. -/
def notHalves (h : Word32 × Word32) : Word32 × Word32 := (~~~h.1, ~~~h.2)

theorem cryptRound_not (h : Word32 × Word32) (k : Word48) :
    cryptRound (notHalves h) (~~~k) = notHalves (cryptRound h k) := by
  rw [cryptRound, notHalves, feistelF_not_not, ← BitVec.not_xor_left, cryptRound, notHalves]

theorem cryptRounds_not (ks : List Word48) (h : Word32 × Word32) :
    cryptRounds (ks.map (~~~·)) (notHalves h) = notHalves (cryptRounds ks h) := by
  induction ks generalizing h with
  | nil => rfl
  | cons k ks ih =>
    show cryptRounds (ks.map (~~~·)) (cryptRound (notHalves h) (~~~k)) = _
    rw [cryptRound_not, ih]
    rfl

theorem initialHalves_not (x : Word64) : initialHalves (~~~x) = notHalves (initialHalves x) := by
  rw [initialHalves, permute_not _ (by decide)]
  exact Prod.ext (extractLsb'_not _ 32 32 (by decide)) (extractLsb'_not _ 0 32 (by decide))

/-- `Crypt` of the complemented block under complemented round keys (R150). -/
theorem crypt_not (ks : Vector Word48 16) (x : Word64) : crypt (ks.map (~~~·)) (~~~x) = ~~~crypt ks x := by
  rw [crypt_eq, Vector.toList_map, initialHalves_not, cryptRounds_not, crypt_eq, ← permute_not _ (by decide), joinBlock,
    joinBlock, BitVec.not_append]
  rfl

theorem keySchedule_not (key : Word64) : keySchedule (~~~key) = (keySchedule key).map (~~~·) :=
  Vector.ext fun i hi => by rw [getElem_keySchedule, Vector.getElem_map, getElem_keySchedule, roundKey_not]

/-- Settles O36: the round keys are complemented, and each round keeps the halves complemented. -/
theorem encryptionOfComplement : Obligations.EncryptionOfComplement := fun key x => by
  rw [keySchedule_not, crypt_not]

/-! ### Reversed and equal round keys (R147, R151) -/

/-- `Crypt` run with its round keys reversed is undone (R147). -/
theorem crypt_reverse_crypt (ks : Vector Word48 16) (x : Word64) : crypt ks.reverse (crypt ks x) = x := by
  have hstart : initialHalves (crypt ks x) = swapHalves (cryptRounds ks.toList (initialHalves x)) := by
    rw [initialHalves, crypt_eq, permute_ip_fp, leftHalf_joinBlock, rightHalf_joinBlock]
  have hback : joinBlock (initialHalves x).1 (initialHalves x).2 = permute Rom.ip x := joinBlock_halves _
  rw [crypt_eq, hstart, Vector.toList_reverse, cryptRounds_reverse, swapHalves_swapHalves, hback, permute_fp_ip]

theorem reverse_eq_of_all_equal {ks : Vector Word48 16} (h : ∀ i j : Fin 16, ks[i] = ks[j]) : ks.reverse = ks :=
  Vector.ext fun i hi => by
    rw [Vector.getElem_reverse]
    exact h ⟨16 - 1 - i, by omega⟩ ⟨i, hi⟩

theorem rotl28_of_zero (n : Nat) : rotl28 0 n = 0 :=
  eq_of_pos fun k h1 h2 => by rw [pos_rotl28 _ _ _ h1 h2]; simp [pos]

/-- A half of all zeros or all ones looks alike after any rotation. -/
theorem rotl28_constant {x : Word28} (h : x = 0 ∨ x = BitVec.allOnes 28) (n : Nat) : rotl28 x n = x := by
  obtain rfl | rfl := h
  · exact rotl28_of_zero n
  · have hones : BitVec.allOnes 28 = ~~~(0 : Word28) := BitVec.not_zero.symm
    rw [hones, rotl28_not, rotl28_of_zero]

/-- With such halves after PC1 every round key is compressed from the same halves (R151). -/
theorem roundKey_of_constant {key : Word64} (hc : (keyHalves key 0).1 = 0 ∨ (keyHalves key 0).1 = BitVec.allOnes 28)
    (hd : (keyHalves key 0).2 = 0 ∨ (keyHalves key 0).2 = BitVec.allOnes 28) (n : Nat) :
    roundKey key n = permute Rom.pc2 (permute Rom.pc1 key) := by
  rw [roundKey, keyHalves_eq, rotl28_constant hc, rotl28_constant hd, keyHalves, joinKey_halves]

theorem permute_zero {lin lout : Nat} (T : PermTable lin lout) : permute T 0 = 0 := by
  simpa using permute_xor T 0 0

/-- The key of parity bits alone has all round keys zero (R151). -/
theorem keySchedule_parity (i : Fin 16) : (keySchedule 0x0101010101010101)[i] = 0 := by
  have hparity : AgreeOffParity 0x0101010101010101 0 := by unfold AgreeOffParity; decide
  have hhalves : keyHalves 0 0 = (0, 0) := by rw [keyHalves, permute_zero]; rfl
  rw [keySchedule_congr hparity.permute_pc1, Fin.getElem_fin, getElem_keySchedule,
    roundKey_of_constant (.inl (by rw [hhalves])) (.inl (by rw [hhalves])), permute_zero, permute_zero]

/-- Settles O37: the reversed list is the list, rotations do nothing to constant halves, and the second example is the
complement of the first. -/
theorem equalRoundKeysSelfInverse : Obligations.EqualRoundKeysSelfInverse := by
  refine ⟨fun ks x heq => ?_, fun key hc hd i j => ?_, fun i => ⟨keySchedule_parity i, ?_⟩⟩
  · have hrev := reverse_eq_of_all_equal heq
    have hinv := crypt_reverse_crypt ks x
    exact ⟨hrev, by rwa [hrev] at hinv⟩
  · rw [Fin.getElem_fin, Fin.getElem_fin, getElem_keySchedule, getElem_keySchedule, roundKey_of_constant hc hd,
      roundKey_of_constant hc hd]
  · have hnot : (0xFEFEFEFEFEFEFEFE : Word64) = ~~~0x0101010101010101 := by decide
    rw [hnot, scheduleOfComplement, keySchedule_parity]
    decide

end Sys2Proof.Machine
end

section
/-! The step relation and the ports (10_state.md R33, R40, R210; 70_reset_and_hazards.md R215, R217, R222). -/

namespace Sys2Proof.Machine

/-- Settles O5: the word offered decodes to the command. -/
theorem stepRunsOfferedCommand : Obligations.StepRunsOfferedCommand := by
  intro s i rest _ hp hhost
  rw [step_offered hp hhost, decode_encode]

/-- Settles O6: with nothing on the port an idle block waits, and an idle drive or none is past. -/
theorem idleKeepsAllState : Obligations.IdleKeepsAllState := by
  intro s hp hhost
  have hrst : rstAsserted s = false := by obtain h | ⟨rest, h⟩ := hhost <;> simp [rstAsserted, h]
  have hoffer : offered s = none := by obtain h | ⟨rest, h⟩ := hhost <;> simp [offered, h]
  rw [step_wait hrst hp hoffer]
  obtain h | ⟨rest, h⟩ := hhost <;> simp [afterNoAccept, h, nextDrive]

/-- Settles O7: `rst` comes before everything, and a busy block looks at no other drive. -/
theorem resetAbandonsCommand : Obligations.ResetAbandonsCommand := by
  refine ⟨fun s rest hhost => ?_, fun s hp hrst => step_busy hrst hp⟩
  rw [step_rst (by simp [rstAsserted, hhost]), resetBy, hhost, List.tail_cons, cleanReset]

/-- A key-schedule round reads and writes no drive of the host. -/
theorem ksRoundState_with_host (s : State) (host : List Drive) (i : Fin 16) (c d : Word28) :
    ksRoundState { s with host := host } i c d = { ksRoundState s i c d with host := host } := by
  unfold ksRoundState; split <;> rfl

/-- A Feistel round reads and writes no drive of the host. -/
theorem feistelRoundState_with_host (s : State) (host : List Drive) (i : Fin 16) (l r : Word32) (k : Word48) :
    feistelRoundState { s with host := host } i l r k = { feistelRoundState s i l r k with host := host } := by
  unfold feistelRoundState; split <;> rfl

/-- The core's own micro-step reads and writes no drive of the host (R83). -/
theorem coreMicroStep_with_host {s t : State} (h : coreMicroStep s = .next t) (host : List Drive) :
    coreMicroStep { s with host := host } = .next { t with host := host } := by
  unfold coreMicroStep at h ⊢
  cases hp : s.phase <;> simp only [hp] at h ⊢
  case idle => cases h; simp only [hp]
  case ks =>
    obtain ⟨hr, c, d, hc, hd, rfl⟩ := ksRound_next h
    rw [← ksRoundState_with_host]
    simp only [ksRound, hr, dif_pos, hc, hd, withReg_some, hp]
  case blk =>
    obtain ⟨hi, l, r, dir, k, hl, hr, hd, hk, rfl⟩ := feistelRound_next h
    rw [← feistelRoundState_with_host]
    simp only [feistelRound, hi, dif_pos, hl, hr, hd, readRk, hk, withReg_some, hp]
  case fin =>
    obtain ⟨l, r, hl, hr, rfl⟩ := finalStep_next h
    simp only [finalStep, hl, hr, withReg_some, respond]

/-- A micro-step without acceptance changes the host's drives only. -/
theorem afterNoAccept_eq (s : State) : afterNoAccept s = { s with host := (afterNoAccept s).host } := by
  unfold afterNoAccept; split <;> rfl

/-- A busy block moves its registers alike whatever is driven but `rst`; the host's list moves on by itself (R222). -/
theorem step_busy_with_host {s t : State} (hp : s.phase ≠ .idle) (h : coreMicroStep s = .next t) {host : List Drive}
    (hrst : rstAsserted { s with host := host } = false) :
    step { s with host := host } = .next { t with host := (afterNoAccept { s with host := host }).host } := by
  rw [step_busy hrst hp, afterNoAccept_eq]
  exact coreMicroStep_with_host h _

/-- Settles O8: the core's own micro-step is the same under the three drives; only a held word stays on the port. -/
theorem busyHoldsOffer : Obligations.BusyHoldsOffer := by
  intro s t rest w hp hhost hstep
  have hcore : coreMicroStep s = .next t := by
    rw [← hstep, step_busy (by simp [rstAsserted, hhost]) hp, afterNoAccept_of_holds (.inl hhost)]
  exact ⟨step_busy_with_host hp hcore rfl, step_busy_with_host hp hcore rfl, step_busy_with_host hp hcore rfl⟩

/-- `cmd_ready` as a proposition (R33, R215). -/
theorem cmdReady_iff (s : State) : (statusView s).cmdReady = true ↔ s.phase = .idle ∧ rstAsserted s = false := by
  simp [statusView, and_comm]

/-- Settles O9: each signal is read off the phase and `rst`; accepting adds that a command is offered. -/
theorem statusViewAndHandshake : Obligations.StatusViewAndHandshake := by
  intro s
  have hbusy : (statusView s).busy = true ↔ s.phase ≠ .idle := by simp [statusView]
  refine ⟨hbusy, cmdReady_iff s, fun hrst => ?_, fun hrst => ?_, rfl, rfl, rfl, ?_⟩
  · simp [statusView, hrst, bne]
  · rw [← Bool.not_eq_true, cmdReady_iff]
    simp [hrst]
  · rw [cmdReadyPin, cmdReady_iff]
    simp only [accepts, Bool.and_eq_true, Bool.not_eq_true', beq_iff_eq]
    tauto

end Sys2Proof.Machine
end

section
/-! The invariants of 10_state.md R36: they hold at reset, every step keeps them, and a state that has them always has
a next state (R36 h, R211). -/

namespace Sys2Proof.Machine

/-! ### What the invariants do not look at, and responses -/

/-- The invariants say nothing of what the host drives. -/
theorem State.Inv.with_host {s : State} (h : s.Inv) (host : List Drive) :
    State.Inv { s with host := host } := { h with }

theorem State.Inv.afterNoAccept {s : State} (h : s.Inv) : (afterNoAccept s).Inv :=
  afterNoAccept_eq s ▸ h.with_host _

/-- R36 g and R77, the part of the invariants about the log and the responses. -/
structure LogInv (elog : BitVec 8) (resp : List Response) : Prop where
  zero : elog.getLsbD 0 = false ∧ elog.getLsbD 1 = false ∧ elog.getLsbD 4 = false
  cause : ∀ b, elog.getLsbD b = true → ∃ r ∈ resp, r.status.code = b
  shapes : ∀ r ∈ resp, r.wf = true

theorem State.Inv.logInv {s : State} (h : s.Inv) : LogInv s.elog s.resp := ⟨h.elogZero, h.elogCause, h.respShapes⟩

/-- One more well-formed response, the log as it was. -/
theorem LogInv.append {elog : BitVec 8} {resp : List Response} (h : LogInv elog resp) {r : Response}
    (hr : r.wf = true) : LogInv elog (resp ++ [r]) where
  zero := h.zero
  cause b hb := (h.cause b hb).imp fun _ ⟨hmem, hcode⟩ => ⟨List.mem_append_left _ hmem, hcode⟩
  shapes := List.forall_mem_append.mpr ⟨h.shapes, List.forall_mem_singleton.mpr hr⟩

/-- An empty log needs no response to stand for it (R37, R162). -/
theorem LogInv.clear {elog : BitVec 8} {resp : List Response} (h : LogInv elog resp) : LogInv 0 resp where
  zero := by decide
  cause b hb := by simp at hb
  shapes := h.shapes

/-- Logging an error of the block leaves the bits of no block error as they were (R36 g, R190). -/
theorem getLsbD_or_code {elog : BitVec 8} {e : ErrorName} (he : e.raisedByBlock = true) {b : Nat}
    (hb : b ∈ ([0, 1, 4] : List Nat)) (hbit : elog.getLsbD b = false) :
    (elog ||| (1#8 <<< e.code)).getLsbD b = false := by
  have hlt : b < 8 := by fin_cases hb <;> decide
  have hcode : e.code ≠ b := fun heq => code_of_raisedByBlock he (heq ▸ hb)
  rw [Bool.eq_false_iff, ne_eq, getLsbD_or_one_shiftLeft _ hlt]
  simp [hbit, hcode]

/-- One more error of the block, logged and answered (R10, R192). -/
theorem LogInv.refuse {elog : BitVec 8} {resp : List Response} (h : LogInv elog resp) {e : ErrorName}
    (he : e.raisedByBlock = true) :
    LogInv (elog ||| (1#8 <<< e.code)) (resp ++ [{ status := .error e, hasData := false, data := 0 }]) := by
  have hwf : Response.wf { status := .error e, hasData := false, data := 0 } = true := by simp [Response.wf, he]
  obtain ⟨h0, h1, h4⟩ := h.zero
  refine ⟨⟨getLsbD_or_code he (by simp) h0, getLsbD_or_code he (by simp) h1, getLsbD_or_code he (by simp) h4⟩,
    fun b hb => ?_, (h.append hwf).shapes⟩
  obtain hold | hnew := (getLsbD_or_one_shiftLeft elog (BitVec.lt_of_getLsbD hb)).mp hb
  · exact (h.append hwf).cause b hold
  · exact ⟨_, List.mem_append_right _ (List.mem_singleton_self _), hnew⟩

/-! ### The states an operation leaves -/

/-- In IDLE the invariants are about the loaded key, the round counter, the log and the responses only. -/
theorem State.Inv.of_idle {s : State} (hp : s.phase = .idle)
    (hkey : s.kvalid = true → ∃ k, s.key = some k ∧ s.c = some (keyHalves k 0).1 ∧ s.d = some (keyHalves k 0).2 ∧
      s.rk = (keySchedule k).map some)
    (hrnd : s.rnd.toNat ≤ 16) (hlog : LogInv s.elog s.resp) : s.Inv where
  keyed := hkey
  inKs h := by simp [hp] at h
  inBlk h := by simp [hp] at h
  inFin h := by simp [hp] at h
  rndBound := hrnd
  elogZero := hlog.zero
  elogCause := hlog.cause
  respShapes := hlog.shapes

/-- The log and the responses may be exchanged for others that satisfy their part. -/
theorem State.Inv.with_log {s : State} (h : s.Inv) {elog : BitVec 8} {resp : List Response} (hlog : LogInv elog resp) :
    State.Inv { s with elog := elog, resp := resp } :=
  { h with elogZero := hlog.zero, elogCause := hlog.cause, respShapes := hlog.shapes }

theorem logInv_nil : LogInv 0 [] := ⟨by decide, fun b hb => by simp at hb, nofun⟩

theorem inv_cleanReset (host : List Drive) : (cleanReset host).Inv := .of_idle rfl nofun (Nat.zero_le 16) logInv_nil

theorem State.Inv.refusedState {s : State} (h : s.Inv) {e : ErrorName} (he : e.raisedByBlock = true) :
    (refusedState e s).Inv :=
  h.with_log (h.logInv.refuse he)

theorem State.Inv.clearedState {s : State} (h : s.Inv) : (clearedState s).Inv :=
  .of_idle rfl nofun (Nat.zero_le 16) (h.logInv.append rfl).clear

/-- A LOADKEY starts with no round done: the halves are those after PC1 (R111, R112). -/
theorem State.Inv.startKeySchedule {s : State} (h : s.Inv) (hfree : s.kvalid = false) (x : Word64) :
    (startKeySchedule x s).Inv where
  keyed hk := by simp [hfree] at hk
  inKs _ := ⟨hfree, Nat.zero_lt_succ 15, x, rfl, rfl, rfl, nofun⟩
  inBlk := nofun
  inFin := nofun
  rndBound := Nat.zero_le 16
  elogZero := h.elogZero
  elogCause := h.elogCause
  respShapes := h.respShapes

/-- An ENC or DEC starts with both halves and the direction written (R131, R132). -/
theorem State.Inv.startBlock {s : State} (h : s.Inv) (hk : s.kvalid = true) (dir : Dir) (x : Word64) :
    (startBlock dir x s).Inv where
  keyed := h.keyed
  inKs := nofun
  inBlk _ := ⟨hk, Nat.zero_lt_succ 15, rfl, rfl, rfl⟩
  inFin := nofun
  rndBound := Nat.zero_le 16
  elogZero := h.elogZero
  elogCause := h.elogCause
  respShapes := h.respShapes

/-- The accept micro-step of every command keeps the invariants. -/
theorem State.Inv.exec {i : Instr} {s t : State} (h : s.Inv) (hx : exec i s = .next t) : t.Inv := by
  obtain ⟨-, rfl⟩ | ⟨-, rfl⟩ | ⟨-, e, he, rfl⟩ | ⟨-, -, hfree, rfl⟩ | ⟨dir, -, -, hk, rfl⟩ := exec_cases hx
  · exact h.with_log (h.logInv.append rfl)
  · exact h.clearedState
  · exact h.refusedState he
  · exact h.startKeySchedule hfree _
  · exact h.startBlock hk dir _

/-- The round counter counts a round. -/
theorem toNat_succ_rnd {n : Nat} (h : n < 16) : (BitVec.ofNat 5 (n + 1)).toNat = n + 1 := by
  rw [BitVec.toNat_ofNat, Nat.mod_eq_of_lt (by omega)]

/-- A key-schedule round adds its round key to those made so far (R113). -/
theorem rk_set_roundKey {rk : Vector (Option Word48) 16} {k : Word64} {n : Fin 16}
    (h : ∀ i : Fin 16, i.val < n.val → rk[i] = some (keySchedule k)[i]) (i : Fin 16) (hi : i.val < n.val + 1) :
    (rk.set n (some (roundKey k (n.val + 1))))[i] = some (keySchedule k)[i] := by
  rw [Fin.getElem_fin, Vector.getElem_set]
  split
  · rename_i heq
    simp [← heq]
  · exact h i (by omega)

/-- A key-schedule round from the halves and round keys of the invariants; the last one completes the key (R113,
R117). -/
theorem State.Inv.ksRoundState {s : State} (h : s.Inv) (hp : s.phase = .ks) {i : Fin 16} (hi : s.rnd.toNat = i.val)
    {c d : Word28} (hc : s.c = some c) (hd : s.d = some d) : (ksRoundState s i c d).Inv := by
  obtain ⟨hfree, -, k, hkey, hc', hd', hrk⟩ := h.inKs hp
  rw [hi] at hc' hd' hrk
  obtain rfl : c = (keyHalves k i.val).1 := Option.some.inj (hc.symm.trans hc')
  obtain rfl : d = (keyHalves k i.val).2 := Option.some.inj (hd.symm.trans hd')
  have hmade := rk_set_roundKey hrk
  have hcount := toNat_succ_rnd i.isLt
  rw [ksRoundState_eq s i _ _ hi]
  by_cases hlast : i.val = 15
  · simp only [hlast] at hmade ⊢
    refine .of_idle rfl (fun _ => ⟨k, hkey, ?_, ?_, ?_⟩) (Nat.le_refl 16) (h.logInv.append rfl)
    · exact congrArg (fun p => some p.1) (keyHalves_sixteen k)
    · exact congrArg (fun p => some p.2) (keyHalves_sixteen k)
    · refine Vector.ext fun j hj => ?_
      rw [Vector.getElem_map]
      exact hmade ⟨j, hj⟩ hj
  · simp only [hlast, if_false, hfree, hp, beq_false_of_ne hlast, Bool.or_false]
    exact { h with
      keyed := nofun
      inKs := fun _ => ⟨rfl, by simp only [hcount]; omega, k, hkey, by rw [hcount]; rfl, by rw [hcount]; rfl,
        by rw [hcount]; exact hmade⟩
      inBlk := nofun
      inFin := nofun
      rndBound := by simp only [hcount]; omega }

/-- A Feistel round; the last one leads to FIN (R134, R141). -/
theorem State.Inv.feistelRoundState {s : State} (h : s.Inv) (hp : s.phase = .blk) {i : Fin 16}
    (hi : s.rnd.toNat = i.val) (l r : Word32) (k : Word48) : (feistelRoundState s i l r k).Inv := by
  obtain ⟨hk, -, -, hright, hdir⟩ := h.inBlk hp
  have hcount := toNat_succ_rnd i.isLt
  rw [feistelRoundState_eq s i _ _ _ hi]
  by_cases hlast : i.val = 15
  · simp only [hlast]
    exact { h with
      inKs := nofun
      inBlk := nofun
      inFin := fun _ => ⟨hk, rfl, rfl, hright⟩
      rndBound := Nat.le_refl 16 }
  · have hswap : i.val < 15 := by omega
    simp only [hswap, hlast, if_true, if_false, hp]
    exact { h with
      inKs := nofun
      inBlk := fun _ => ⟨hk, by simp only [hcount]; omega, rfl, rfl, hdir⟩
      inFin := nofun
      rndBound := by simp only [hcount]; omega }

/-- The final micro-step responds with data and leaves the key registers (R146). -/
theorem State.Inv.final {s : State} (h : s.Inv) (x : Word64) :
    (respond { s with phase := .idle } .ok (some x)).Inv :=
  .of_idle rfl h.keyed h.rndBound (h.logInv.append rfl)

/-! ### Every step -/

/-- Settles O41: one case for each thing a step can do. -/
theorem stepKeepsInvariants : Obligations.StepKeepsInvariants := by
  intro s t h hstep
  have hbusy := h.afterNoAccept
  obtain ⟨-, rfl⟩ | ⟨-, -, -, rfl⟩ | ⟨-, -, w, -, hx⟩ | ⟨-, hp, hr, c, d, hc, hd, rfl⟩ |
    ⟨-, hp, hr, l, r, dir, k, -, -, -, -, rfl⟩ | ⟨-, -, l, r, -, -, rfl⟩ := step_cases hstep
  · exact inv_cleanReset _
  · exact hbusy
  · exact (h.with_host s.host.tail).exec hx
  · exact hbusy.ksRoundState (by simpa) (by simp) (by simpa) (by simpa)
  · exact hbusy.feistelRoundState (by simpa) (by simp) l r k
  · exact hbusy.final _

/-- Settles O40: the reset state is idle, without a key, and has answered nothing. -/
theorem invariantsAtReset : Obligations.InvariantsAtReset := inv_cleanReset

/-- With the invariants every register a micro-step of the core reads holds a value (R36 h). -/
theorem State.Inv.exists_next {s : State} (h : s.Inv) : ∃ t, step s = .next t := by
  cases hrst : rstAsserted s with
  | true => exact ⟨_, step_rst hrst⟩
  | false =>
    cases hp : s.phase with
    | idle =>
      cases ho : offered s with
      | none => exact ⟨_, step_wait hrst hp ho⟩
      | some w => rw [step_accept hrst hp ho]; exact exec_next _ _
    | ks =>
      obtain ⟨-, hr, k, -, hc, hd, -⟩ := h.inKs hp
      exact ⟨_, step_ks_of_not_rst hrst hp hr hc hd⟩
    | blk =>
      obtain ⟨hk, hr, hl, hright, hdir⟩ := h.inBlk hp
      obtain ⟨l, hl⟩ := Option.isSome_iff_exists.mp hl
      obtain ⟨r, hright⟩ := Option.isSome_iff_exists.mp hright
      obtain ⟨dir, hdir⟩ := Option.isSome_iff_exists.mp hdir
      obtain ⟨k, -, -, -, hrk⟩ := h.keyed hk
      exact ⟨_, step_blk_of_not_rst hrst hp hr hl hright hdir (by rw [hrk, Fin.getElem_fin, Vector.getElem_map])⟩
    | fin =>
      obtain ⟨-, -, hl, hright⟩ := h.inFin hp
      obtain ⟨l, hl⟩ := Option.isSome_iff_exists.mp hl
      obtain ⟨r, hright⟩ := Option.isSome_iff_exists.mp hright
      exact ⟨_, step_fin_of_not_rst hrst hp hl hright⟩

/-- Settles O42, from the registers the invariants keep in each phase. -/
theorem stepNeverStops : Obligations.StepNeverStops := fun _ h => h.exists_next

/-- Every run from a state with the invariants goes on and keeps them. -/
theorem State.Inv.run {s : State} (h : s.Inv) (n : Nat) : ∃ t, run n s = .next t ∧ t.Inv := by
  induction n generalizing s with
  | zero => exact ⟨s, rfl, h⟩
  | succ n ih =>
    obtain ⟨u, hu⟩ := h.exists_next
    rw [run_succ n hu]
    exact ih (stepKeepsInvariants s u h hu)

/-- Settles O43: the invariants hold at reset. -/
theorem runsFromResetAreSafe : Obligations.RunsFromResetAreSafe := fun host n => (inv_cleanReset host).run n

end Sys2Proof.Machine
end

section
/-! What every step and every run keeps track of: the host's drives, the micro-steps left (60_exceptions.md R211 d), the
responses owed (10_state.md R36 f), and the registers of a loaded key (R26, R36 b). -/

namespace Sys2Proof.Machine

/-! ### The host's drives -/

@[simp] theorem ksRoundState_host (s : State) (i : Fin 16) (c d : Word28) : (ksRoundState s i c d).host = s.host := by
  unfold ksRoundState; split <;> rfl

@[simp] theorem feistelRoundState_host (s : State) (i : Fin 16) (l r : Word32) (k : Word48) :
    (feistelRoundState s i l r k).host = s.host := by
  unfold feistelRoundState; split <;> rfl

theorem afterNoAccept_host (s : State) : (afterNoAccept s).host <:+ s.host := by
  unfold afterNoAccept
  split
  · exact List.suffix_rfl
  · exact List.tail_suffix s.host

theorem exec_host {i : Instr} {s t : State} (h : exec i s = .next t) : t.host = s.host := by
  obtain ⟨-, rfl⟩ | ⟨-, rfl⟩ | ⟨-, e, -, rfl⟩ | ⟨-, -, -, rfl⟩ | ⟨dir, -, -, -, rfl⟩ := exec_cases h <;> rfl

/-- A step takes drives from the front of the host's list and adds none. -/
theorem step_host {s t : State} (h : step s = .next t) : t.host <:+ s.host := by
  obtain ⟨-, rfl⟩ | ⟨-, -, -, rfl⟩ | ⟨-, -, w, -, hx⟩ | ⟨-, -, hr, c, d, -, -, rfl⟩ |
    ⟨-, -, hr, l, r, dir, k, -, -, -, -, rfl⟩ | ⟨-, -, l, r, -, -, rfl⟩ := step_cases h
  · exact List.tail_suffix s.host
  · exact afterNoAccept_host s
  · rw [exec_host hx]; exact List.tail_suffix s.host
  · simpa using afterNoAccept_host s
  · simpa using afterNoAccept_host s
  · simpa using afterNoAccept_host s

theorem noRst.step {s t : State} (hs : noRst s) (h : step s = .next t) : noRst t :=
  fun hmem => hs ((step_host h).mem hmem)

theorem noRst.rstAsserted {s : State} (hs : noRst s) : rstAsserted s = false := by
  unfold Machine.rstAsserted
  split
  · rename_i rest hhost
    exact absurd (by simp [hhost]) hs
  · rfl

/-! ### The micro-steps left (R211 d) -/

/-- A micro-step of a busy block without `rst` is one of those left. -/
theorem stepsLeft_step {s t : State} (hrst : rstAsserted s = false) (hp : s.phase ≠ .idle)
    (hstep : step s = .next t) : stepsLeft t + 1 = stepsLeft s := by
  obtain ⟨hr, -⟩ | ⟨-, hidle, -⟩ | ⟨-, hidle, -⟩ | ⟨-, hks, hr, c, d, -, -, rfl⟩ |
    ⟨-, hblk, hr, l, r, dir, k, -, -, -, -, rfl⟩ | ⟨-, hfin, l, r, -, -, rfl⟩ := step_cases hstep
  · simp [hrst] at hr
  · exact absurd hidle hp
  · exact absurd hidle hp
  · rw [ksRoundState_eq _ _ _ _ (by simp)]
    by_cases hlast : s.rnd.toNat = 15
    · simp only [stepsLeft, hlast, if_true, hks]
    · simp only [stepsLeft, hlast, if_false, afterNoAccept_phase, hks, toNat_succ_rnd hr]
      omega
  · rw [feistelRoundState_eq _ _ _ _ _ (by simp)]
    by_cases hlast : s.rnd.toNat = 15
    · simp only [stepsLeft, hlast, if_true, hblk]
    · simp only [stepsLeft, hlast, if_false, afterNoAccept_phase, hblk, toNat_succ_rnd hr]
      omega
  · simp only [stepsLeft, respond_phase, hfin]

/-- No micro-steps are left exactly in IDLE: the round counter of a busy block is in range (R36 c, d). -/
theorem State.Inv.stepsLeft_eq_zero_iff {s : State} (h : s.Inv) : stepsLeft s = 0 ↔ s.phase = .idle := by
  cases hp : s.phase with
  | idle => simp [stepsLeft, hp]
  | ks => have ⟨_, hr, _⟩ := h.inKs hp; simp [stepsLeft, hp]; omega
  | blk => have ⟨_, hr, _⟩ := h.inBlk hp; simp [stepsLeft, hp]; omega
  | fin => simp [stepsLeft, hp]

theorem stepsLeft_le (s : State) : stepsLeft s ≤ 17 := by
  cases hp : s.phase <;> simp only [stepsLeft, hp] <;> omega

/-- As many micro-steps as are left, or fewer, are taken one by one. -/
theorem State.Inv.run_stepsLeft {s : State} (h : s.Inv) (hs : noRst s) (n : Nat) (hn : n ≤ stepsLeft s) :
    ∃ t, Machine.run n s = .next t ∧ t.Inv ∧ stepsLeft t + n = stepsLeft s := by
  induction n generalizing s with
  | zero => exact ⟨s, rfl, h, rfl⟩
  | succ n ih =>
    obtain ⟨u, hu⟩ := h.exists_next
    have hp : s.phase ≠ .idle := mt h.stepsLeft_eq_zero_iff.mpr (by omega)
    have hleft := stepsLeft_step hs.rstAsserted hp hu
    obtain ⟨t, hrun, ht, hcount⟩ := ih (stepKeepsInvariants s u h hu) (hs.step hu) (by omega)
    exact ⟨t, by rw [run_succ n hu, hrun], ht, by omega⟩

/-- Settles O44: each micro-step is one of those left, and IDLE is reached when none is. -/
theorem busyPhasesEnd : Obligations.BusyPhasesEnd := by
  refine fun s h hs => ⟨stepsLeft_le s, ?_, fun n t hn hrun => ?_⟩
  · obtain ⟨t, hrun, ht, hcount⟩ := h.run_stepsLeft hs _ (Nat.le_refl _)
    exact ⟨t, hrun, ht.stepsLeft_eq_zero_iff.mp (by omega)⟩
  · obtain ⟨u, hrun', hu, hcount⟩ := h.run_stepsLeft hs n hn.le
    obtain rfl : u = t := Host.Outcome.next.inj (hrun'.symm.trans hrun)
    exact mt hu.stepsLeft_eq_zero_iff.mpr (by omega)

/-! ### Responses and accepted commands (R36 f, R79) -/

/-- Between `s` and `t`, `n` commands were accepted: each is answered, or in flight, and no earlier answer is lost. -/
def Owes (n : Nat) (s t : State) : Prop :=
  t.resp.length + inFlight t = s.resp.length + inFlight s + n ∧ s.resp <+: t.resp

theorem Owes.trans {m n : Nat} {s t u : State} (h : Owes m s t) (h' : Owes n t u) : Owes (m + n) s u := by
  obtain ⟨hcount, hpre⟩ := h
  obtain ⟨hcount', hpre'⟩ := h'
  exact ⟨by omega, hpre.trans hpre'⟩

/-- An accepted command is answered at once or starts and is in flight (R36 f). -/
theorem owes_exec {i : Instr} {s t : State} (hp : s.phase = .idle) (h : exec i s = .next t) : Owes 1 s t := by
  obtain ⟨-, rfl⟩ | ⟨-, rfl⟩ | ⟨-, e, -, rfl⟩ | ⟨-, -, -, rfl⟩ | ⟨dir, -, -, -, rfl⟩ := exec_cases h <;>
    simp [Owes, inFlight, hp, clearedState, State.reset]

theorem owes_step {s t : State} (hrst : rstAsserted s = false) (h : step s = .next t) :
    Owes (if accepts s then 1 else 0) s t := by
  obtain ⟨hr, -⟩ | ⟨-, hp, ho, rfl⟩ | ⟨-, hp, w, ho, hx⟩ | ⟨-, hp, hr, c, d, -, -, rfl⟩ |
    ⟨-, hp, hr, l, r, dir, k, -, -, -, -, rfl⟩ | ⟨-, hp, l, r, -, -, rfl⟩ := step_cases h
  · simp [hrst] at hr
  · simp [Owes, accepts, inFlight, hp, ho]
  · rw [if_pos (by simp [accepts, hrst, hp, ho])]
    exact owes_exec (s := nextDrive s) hp hx
  · by_cases hlast : s.rnd.toNat = 15 <;> simp [Owes, accepts, inFlight, hp, hlast]
  · by_cases hlast : s.rnd.toNat = 15 <;> simp [Owes, accepts, inFlight, hp, hlast]
  · simp [Owes, accepts, inFlight, hp]

theorem acceptedIn_succ {s t : State} (n : Nat) (h : step s = .next t) :
    acceptedIn (n + 1) s = (if accepts s then 1 else 0) + acceptedIn n t := by
  rw [acceptedIn, h]

/-- Settles O45, by induction on the number of steps: what each step owes adds up. -/
theorem oneResponsePerCommand : Obligations.OneResponsePerCommand := by
  intro n
  induction n with
  | zero =>
    intro s t _ hrun
    cases hrun
    exact ⟨rfl, List.prefix_rfl⟩
  | succ n ih =>
    intro s t hs hrun
    obtain ⟨u, hu, hrun⟩ := run_succ_next hrun
    rw [acceptedIn_succ n hu]
    exact (owes_step hs.rstAsserted hu).trans (ih u t (hs.step hu) hrun)

/-! ### The registers of a loaded key (R26, R36 b) -/

@[simp] theorem ksRoundState_kvalid (s : State) (i : Fin 16) (c d : Word28) :
    (ksRoundState s i c d).kvalid = (s.kvalid || i.val == 15) := by
  unfold ksRoundState; split <;> simp_all

@[simp] theorem feistelRoundState_kvalid (s : State) (i : Fin 16) (l r : Word32) (k : Word48) :
    (feistelRoundState s i l r k).kvalid = s.kvalid := by
  unfold feistelRoundState; split <;> rfl

/-- CLEAR clears `KVALID` and no other command's accept micro-step writes it (R26). -/
theorem exec_kvalid {i : Instr} {s t : State} (h : exec i s = .next t) :
    t.kvalid = if i.op = 4 then false else s.kvalid := by
  obtain ⟨hop, rfl⟩ | ⟨hop, rfl⟩ | ⟨hop, e, -, rfl⟩ | ⟨hop, -, -, rfl⟩ | ⟨dir, hop, -, -, rfl⟩ := exec_cases h
  · simp [hop]
  · rw [if_pos hop]; rfl
  · rw [if_neg hop, refusedState_kvalid]
  · simp [hop]
  · cases dir <;> simp [hop]

/-- What a step makes of `KVALID` (R26). -/
theorem step_kvalid {s t : State} (h : step s = .next t) :
    t.kvalid = if discards s then false else s.kvalid || decide (s.phase = .ks ∧ s.rnd = 15) := by
  obtain ⟨hr, rfl⟩ | ⟨hr, hp, ho, rfl⟩ | ⟨hr, hp, w, ho, hx⟩ | ⟨hr, hp, hn, c, d, -, -, rfl⟩ |
    ⟨hr, hp, hn, l, r, dir, k, -, -, -, -, rfl⟩ | ⟨hr, hp, l, r, -, -, rfl⟩ := step_cases h
  · simp [discards_of_rst hr]
  · simp [discards_of_not_offered hr ho, hp]
  · rw [exec_kvalid hx, decode_op]
    simp [discards_of_accept hr hp ho, hp]
  · have hround : (s.rnd.toNat == 15) = decide (s.rnd = 15) := Bool.eq_iff_iff.mpr (by simp [toNat_eq_fifteen_iff])
    simp [discards_of_busy hr, hp, hround]
  · simp [discards_of_busy hr, hp]
  · simp [discards_of_busy hr, hp]

/-- Settles O46, from what a step makes of `KVALID`. -/
theorem kvalidWrittenOnlyAsStated : Obligations.KvalidWrittenOnlyAsStated := by
  intro s t h
  rw [step_kvalid h]
  refine ⟨fun h0 h1 => ?_, fun hp hn hr => ?_, fun hd => by simp [hd], fun h1 h0 => ?_⟩
  · have hkeep : discards s = false := Bool.eq_false_iff.mpr fun hd => by simp [hd] at h1
    have hrst : rstAsserted s = false := Bool.eq_false_iff.mpr fun hr => by simp [discards_of_rst hr] at hkeep
    obtain ⟨hp, hn⟩ : s.phase = .ks ∧ s.rnd = 15 := by simpa [hkeep, h0] using h1
    exact ⟨hp, hn, hrst⟩
  · simp [discards_of_busy hr, hp, hn]
  · simpa [h1] using h0

/-- The key registers and `KVALID`. -/
def keyRegisters (s : State) : Option Word64 × Option Word28 × Option Word28 × Vector (Option Word48) 16 × Bool :=
  (s.key, s.c, s.d, s.rk, s.kvalid)

theorem exec_keyRegisters {i : Instr} {s t : State} (hk : s.kvalid = true) (hop : i.op ≠ 4)
    (h : exec i s = .next t) : keyRegisters t = keyRegisters s := by
  obtain ⟨-, rfl⟩ | ⟨hop', -⟩ | ⟨-, e, -, rfl⟩ | ⟨-, -, hfree, -⟩ | ⟨dir, -, -, -, rfl⟩ := exec_cases h
  · rfl
  · exact absurd hop' hop
  · rfl
  · simp [hk] at hfree
  · rfl

theorem feistelRoundState_keyRegisters (s : State) (i : Fin 16) (l r : Word32) (k : Word48) :
    keyRegisters (feistelRoundState s i l r k) = keyRegisters s := by
  unfold feistelRoundState; split <;> rfl

theorem afterNoAccept_keyRegisters (s : State) : keyRegisters (afterNoAccept s) = keyRegisters s := by
  simp [keyRegisters]

/-- A step that does not discard a loaded key writes none of its registers (R36 b). -/
theorem State.Inv.step_keyRegisters {s t : State} (h : s.Inv) (hk : s.kvalid = true) (hstep : Machine.step s = .next t)
    (hd : discards s = false) : keyRegisters t = keyRegisters s := by
  obtain ⟨hr, -⟩ | ⟨-, -, -, rfl⟩ | ⟨hr, hp, w, ho, hx⟩ | ⟨-, hp, -⟩ |
    ⟨-, -, hn, l, r, dir, k, -, -, -, -, rfl⟩ | ⟨-, -, l, r, -, -, rfl⟩ := step_cases hstep
  · simp [discards_of_rst hr] at hd
  · exact afterNoAccept_keyRegisters s
  · have hop : opField w ≠ 4 := mt (discards_of_accept hr hp ho).mpr (by simp [hd])
    exact exec_keyRegisters (s := nextDrive s) hk (by rwa [decode_op]) hx
  · obtain ⟨hfree, -⟩ := h.inKs hp
    simp [hk] at hfree
  · rw [feistelRoundState_keyRegisters, afterNoAccept_keyRegisters]
  · exact afterNoAccept_keyRegisters s

/-- Settles O47: the key registers and `KVALID` stay together. -/
theorem loadedKeyIsImmutable : Obligations.LoadedKeyIsImmutable := by
  intro s t h hk hstep hd
  have hsame := h.step_keyRegisters hk hstep hd
  simp only [keyRegisters, Prod.mk.injEq] at hsame
  obtain ⟨hkey, hc, hd, hrk, hkv⟩ := hsame
  exact ⟨hkey, hc, hd, hrk, hkv.trans hk⟩

end Sys2Proof.Machine
end

section
/-! Whole commands on the machine: LOADKEY to its response (41_key_scheduler.md R110, R117; 70_reset_and_hazards.md
R219), and what the responses of ENC and DEC say of `Crypt` (42_round_engine.md R144, R147; 41_key_scheduler.md
R119). -/

namespace Sys2Proof.Machine

/-- An idle block without a key accepts a LOADKEY and starts its key schedule (R110, R111). -/
theorem step_loadkey {s : State} {key : Word64} {rest : List Drive} (hp : s.phase = .idle) (hfree : s.kvalid = false)
    (hhost : s.host = .offer (encode (.loadkey 64 key)) :: rest) :
    step s = .next (startKeySchedule key { s with host := rest }) := by
  rw [step_offered hp (.inl hhost), decode_encode]
  exact execLoadkey_start key hfree

/-- Settles O29: the sixteen rounds bring the halves back to those after PC1. -/
theorem loadkeyComputesSchedule : Obligations.LoadkeyComputesSchedule := by
  intro s key rest hp hfree hrest hhost
  have hrun := run_ks_all (s := startKeySchedule key { s with host := rest }) (key := key) hrest rfl rfl rfl rfl
  rw [run_succ 16 (step_loadkey hp hfree hhost), hrun, keyHalves_sixteen, keyHalves]
  rfl

/-- Settles O50: LOADKEY from reset, of which the run's end state shows every register. -/
theorem loadkeyReachesKeyed : Obligations.LoadkeyReachesKeyed := fun k =>
  ⟨_, loadkeyComputesSchedule _ k [] rfl rfl (.inl rfl) rfl, ⟨rfl, rfl, rfl, rfl⟩, rfl, rfl⟩

/-- Settles O30: ENC and DEC are the two directions of one command. -/
theorem blockCommandsComputeCrypt : Obligations.BlockCommandsComputeCrypt := fun _ _ x _ hs hrest =>
  ⟨run_blockCommand (dir := .encrypt) (x := x) hs hrest, run_blockCommand (dir := .decrypt) (x := x) hs hrest⟩

theorem Keyed.ready {k : Word64} {s : State} (h : Keyed k s) : Ready (keySchedule k) s := ⟨h.idle, h.valid, h.keys⟩

/-- The other direction (R133). -/
def Dir.opposite : Dir → Dir
  | .encrypt => .decrypt
  | .decrypt => .encrypt

/-- `Crypt` in one direction is undone by the other (R147). -/
theorem crypt_opposite (dir : Dir) (ks : Vector Word48 16) (x : Word64) :
    crypt (keysFor dir.opposite ks) (crypt (keysFor dir ks) x) = x := by
  cases dir with
  | encrypt => exact crypt_reverse_crypt ks x
  | decrypt => simpa [keysFor, Dir.opposite] using crypt_reverse_crypt ks.reverse x

theorem Keyed.with_host {k : Word64} {s : State} (h : Keyed k s) (host : List Drive) :
    Keyed k { s with host := host } := ⟨h.idle, h.valid, h.log, h.keys⟩

/-- An ENC or DEC, alone on the port, from a keyed block leaves it keyed with one more response (R144). -/
theorem Keyed.run_blockCommand {k : Word64} {s : State} (h : Keyed k s) (dir : Dir) (x : Word64)
    (hhost : s.host = [.offer (encode (blockCommand dir x))]) :
    ∃ t, run 18 s = .next t ∧ Keyed k t ∧ t.resp = s.resp ++ [blockResponse (keySchedule k) dir x] := by
  obtain ⟨l, r, hrun⟩ := Machine.run_blockCommand h.ready (.inl rfl) hhost
  exact ⟨_, hrun, ⟨h.idle, h.valid, h.log, h.keys⟩, rfl⟩

/-- A block command, and after it the opposite one of its result, answer the block (R147). -/
theorem Keyed.run_opposite {k : Word64} {s : State} (h : Keyed k s) (dir : Dir) (x : Word64)
    (hhost : s.host = [.offer (encode (blockCommand dir x))]) :
    ∃ t y u, run 18 s = .next t ∧ t.resp = s.resp ++ [{ status := .ok, hasData := true, data := y }] ∧
      run 18 { t with host := [.offer (encode (blockCommand dir.opposite y))] } = .next u ∧
      u.resp = t.resp ++ [{ status := .ok, hasData := true, data := x }] := by
  obtain ⟨t, hrun, ht, hresp⟩ := h.run_blockCommand dir x hhost
  obtain ⟨u, hrun', -, hresp'⟩ := (ht.with_host _).run_blockCommand dir.opposite _ rfl
  refine ⟨t, _, u, hrun, hresp, hrun', ?_⟩
  rw [hresp', blockResponse, crypt_opposite]

/-- Settles O31: the functions invert each other, and the machine computes them in both directions. -/
theorem decryptionInvertsEncryption : Obligations.DecryptionInvertsEncryption :=
  ⟨crypt_reverse_crypt, fun _ _ x hs => ⟨hs.run_opposite .encrypt x, hs.run_opposite .decrypt x⟩⟩

/-- Settles O34: such keys have one key schedule, and the response depends on the round keys only. -/
theorem parityBitsInfluenceNothing : Obligations.ParityBitsInfluenceNothing := by
  intro k k' s s' i x hparity hs hs'
  have hsame : keySchedule k = keySchedule k' := keySchedule_congr (AgreeOffParity.permute_pc1 hparity)
  have hready' : Ready (keySchedule k) s' := by rw [hsame]; exact hs'.ready
  exact blocksAreIndependent s s' (keySchedule k) i x hs.ready hready'

end Sys2Proof.Machine
end

section
/-! The host's side: hex digits of a block (44_host_facade.md R171, R172), the blocks of a message (R175), texts through
a keyed block (R177 to R182), and the assembler's lines (30_encoding.md R84, R85). -/

namespace Sys2Proof.Machine

/-! ### The digits of a block (R171, R172) -/

/-- Digit m of whole chunks is made of bits 4m to 4m+3. -/
theorem getElem?_hexOfChunks (bits : List Bool) (m : Nat) (h : 4 * m + 4 ≤ bits.length) :
    (hexOfChunks bits)[m]? = some (hexDigit (BitVec.ofBoolListBE
      [bits.getD (4 * m) false, bits.getD (4 * m + 1) false, bits.getD (4 * m + 2) false,
        bits.getD (4 * m + 3) false])) := by
  induction bits using chunks_induct generalizing m with
  | short l hl => omega
  | chunk b0 b1 b2 b3 rest ih =>
    cases m with
    | zero => rfl
    | succ m => exact ih m (by simp only [List.length_cons] at h; omega)

theorem getD_wordBits (x : Word64) (k : Nat) (h : k < 64) : (wordBits x).getD k false = x.getMsbD k := by
  simp [wordBits, List.getD_eq_getElem?_getD, h]

/-- Digit m of a block is its DES positions 4m+1 to 4m+4 (R56, R172). -/
theorem getElem?_binaryToHex_wordBits (x : Word64) (m : Fin 16) :
    (binaryToHex (wordBits x))[m.val]? = some (hexDigit (x.extractLsb' (60 - 4 * m.val) 4)) := by
  have hbit (i : Nat) (hi : i < 4) :
      (wordBits x).getD (4 * m.val + i) false = (x.extractLsb' (60 - 4 * m.val) 4).getMsbD i := by
    have hslice := pos_extractLsb' x (60 - 4 * m.val) 4 (i + 1) (by omega) (by omega) (by omega)
    have hk : 64 - (60 - 4 * m.val + 4) + (i + 1) - 1 = 4 * m.val + i := by omega
    rw [pos, pos, Nat.add_sub_cancel, hk] at hslice
    rw [getD_wordBits x _ (by omega), hslice]
  have hfirst := hbit 0 (by decide)
  rw [Nat.add_zero] at hfirst
  rw [binaryToHex_wordBits, getElem?_hexOfChunks _ _ (by rw [length_wordBits]; omega), hfirst, hbit 1 (by decide),
    hbit 2 (by decide), hbit 3 (by decide), ofBoolListBE_nibble]

theorem binaryToHex_wordBits_digits (x : Word64) : ∀ ch ∈ binaryToHex (wordBits x), ∃ v, ch = hexDigit v := by
  rw [binaryToHex_wordBits]
  exact hexOfChunks_digits _

/-- Settles O51: every character is a digit the codec wrote, and digit m is the one of the block's m-th four bits. -/
theorem hexRoundTrip : Obligations.HexRoundTrip := by
  refine fun x => ⟨length_binaryToHex_wordBits x, operandFields_binaryToHex x, fun ch hch => ?_, fun m => ?_⟩
  · obtain ⟨v, rfl⟩ := binaryToHex_wordBits_digits x ch hch
    exact ⟨by rw [hexValue_hexDigit]; rfl, hexDigit_upper v⟩
  · rw [getElem?_binaryToHex_wordBits, Option.bind_some, hexValue_hexDigit]

/-! ### The blocks of a message (R175) -/

/-- Induction over a hex string, one block of 16 digits at a time. -/
theorem blocks_induct {P : List Char → Prop} (nil : P []) (block : ∀ hex, hex ≠ [] → P (hex.drop 16) → P hex)
    (hex : List Char) : P hex := by
  induction hn : hex.length using Nat.strongRecOn generalizing hex with
  | ind n ih =>
    by_cases h : hex = []
    · exact h ▸ nil
    · have hpos := List.length_pos_iff.mpr h
      exact block hex h (ih _ (by simp only [List.length_drop]; omega) _ rfl)

theorem length_splitIntoBlocks (hex : List Char) : (splitIntoBlocks hex).length = (hex.length + 15) / 16 := by
  simp [splitIntoBlocks]

theorem length_of_mem_splitIntoBlocks (hex : List Char) : ∀ b ∈ splitIntoBlocks hex, b.length = 16 := by
  intro b hb
  simp only [splitIntoBlocks, if_neg (show ¬ 16 = 0 by decide), List.mem_map] at hb
  obtain ⟨m, -, rfl⟩ := hb
  exact length_padChunk _ (by simp)

/-- The blocks joined are the message and the padding of the last block. -/
theorem flatten_splitIntoBlocks (hex : List Char) :
    (splitIntoBlocks hex).flatten = hex ++ List.replicate ((hex.length + 15) / 16 * 16 - hex.length) '0' := by
  induction hex using blocks_induct with
  | nil => rw [splitIntoBlocks_nil]; rfl
  | block hex hne ih =>
    have hpos := List.length_pos_iff.mpr hne
    rw [splitIntoBlocks_cons hex hne, List.flatten_cons, ih, padChunk, List.length_take, List.length_drop]
    by_cases hlen : 16 ≤ hex.length
    · have hpad : (hex.length - 16 + 15) / 16 * 16 - (hex.length - 16) = (hex.length + 15) / 16 * 16 - hex.length := by
        omega
      rw [min_eq_left hlen, Nat.sub_self, List.replicate_zero, List.append_nil, hpad, ← List.append_assoc,
        List.take_append_drop]
    · have hpad : (hex.length + 15) / 16 * 16 - hex.length = 16 - hex.length := by omega
      have hnone : hex.length - 16 = 0 := by omega
      rw [min_eq_right (by omega), List.take_of_length_le (by omega), List.drop_of_length_le (by omega), hpad, hnone]
      exact List.append_nil _

/-- Settles O52: the contents by induction over the blocks. -/
theorem blocksSplitTheMessage : Obligations.BlocksSplitTheMessage := fun hex =>
  ⟨length_splitIntoBlocks hex, length_of_mem_splitIntoBlocks hex, flatten_splitIntoBlocks hex⟩

/-! ### Messages through a keyed block (R177, R178) -/

/-- The hex digits of a block. -/
def wordHex (x : Word64) : List Char := binaryToHex (wordBits x)

theorem length_wordHex (x : Word64) : (wordHex x).length = 16 := length_binaryToHex_wordBits x

/-- Both block commands of the facade, by direction. -/
def blockMk : Dir → BitVec 8 → Word64 → Instr
  | .encrypt => .enc
  | .decrypt => .dec

theorem blockMk_eq (dir : Dir) (x : Word64) : blockMk dir 64 x = blockCommand dir x := by cases dir <;> rfl

/-- One block through a keyed block: its hex in, the hex of `Crypt` of it out (R177). -/
theorem Keyed.blockOp {k : Word64} {s : State} (h : Keyed k s) (dir : Dir) (x : Word64) :
    ∃ t, blockOp (blockMk dir) (wordHex x) s = (.ok (wordHex (crypt (keysFor dir (keySchedule k)) x)), t) ∧
      Keyed k t := by
  obtain ⟨t, hrun, ht, hresp⟩ := (h.with_host _).run_blockCommand dir x rfl
  have hissue : issue (blockCommand dir x) s = (.ok (blockResponse (keySchedule k) dir x), t) := by
    have hrun' : run commandSteps (offerAll [blockCommand dir x] s) = .next t := hrun
    have hlast : t.resp[s.resp.length]? = some (blockResponse (keySchedule k) dir x) := by simp [hresp]
    simp only [issue, hrun', hlast]
  refine ⟨t, ?_, ht⟩
  rw [Machine.blockOp, wordHex, operandFields_binaryToHex]
  simp only [blockMk_eq, hissue, blockResponse]
  rfl

/-- The blocks of a message through a keyed block, each by itself (R178, R186). -/
theorem Keyed.blocksOp {k : Word64} (dir : Dir) (xs : List Word64) {s : State} (h : Keyed k s) :
    ∃ t, blocksOp (blockMk dir) (xs.map wordHex) s =
      (.ok ((xs.map (crypt (keysFor dir (keySchedule k)))).map wordHex).flatten, t) ∧ Keyed k t := by
  induction xs generalizing s with
  | nil => exact ⟨s, rfl, h⟩
  | cons x xs ih =>
    obtain ⟨t, hx, ht⟩ := h.blockOp dir x
    obtain ⟨u, hxs, hu⟩ := ih ht
    refine ⟨u, ?_, hu⟩
    rw [List.map_cons, Machine.blocksOp, hx]
    simp only [hxs]
    rfl

theorem length_flatten_wordHex (xs : List Word64) : ((xs.map wordHex).flatten).length = 16 * xs.length := by
  simp [List.length_flatten, Function.comp_def, length_wordHex, Nat.mul_comm]

/-- The hex of a text is digits the codec wrote, and so is its padding: the blocks are hex of words. -/
theorem exists_words_of_text (text : List Char) :
    ∃ xs : List Word64, xs.map wordHex = splitIntoBlocks (textToHex text) := by
  have hdigits : ∀ ch ∈ (splitIntoBlocks (textToHex text)).flatten, ∃ v, ch = hexDigit v := by
    intro ch hch
    rw [flatten_splitIntoBlocks, List.mem_append] at hch
    obtain hch | hch := hch
    · obtain ⟨b, -, hch⟩ := List.mem_flatMap.mp hch
      obtain rfl | rfl : ch = _ ∨ ch = _ := by simpa [hexOfByte] using hch
      · exact ⟨_, rfl⟩
      · exact ⟨_, rfl⟩
    · exact ⟨0, List.eq_of_mem_replicate hch⟩
  have hword : splitIntoBlocks (textToHex text) ∈ {bs : List (List Char) | ∀ b ∈ bs, b ∈ Set.range wordHex} :=
    fun b hb => by
      obtain ⟨x, hx⟩ := exists_word_of_digits b (length_of_mem_splitIntoBlocks _ b hb) fun ch hch =>
        hdigits ch (List.mem_flatten_of_mem hb hch)
      exact ⟨x, hx.symm⟩
  rwa [← Set.range_list_map] at hword

/-- A text through a keyed block: its blocks, each encrypted (R178). -/
theorem Keyed.encryptText {k : Word64} {s : State} (h : Keyed k s) {text : List Char} {xs : List Word64}
    (hxs : xs.map wordHex = splitIntoBlocks (textToHex text)) :
    ∃ t, encryptText text s = (.ok ((xs.map (crypt (keySchedule k))).map wordHex).flatten, t) ∧ Keyed k t := by
  rw [Machine.encryptText, encryptRawHex, ← hxs]
  exact h.blocksOp .encrypt xs

/-- Settles O53: one block of 16 digits for each block of the text's hex. -/
theorem ciphertextLength : Obligations.CiphertextLength := by
  intro k s text h
  obtain ⟨xs, hxs⟩ := exists_words_of_text text
  obtain ⟨t, hrun, ht⟩ := h.encryptText hxs
  have hcount : xs.length = (2 * (utf8Encode text).length + 15) / 16 := by
    rw [← length_textToHex, ← length_splitIntoBlocks, ← hxs, List.length_map]
  refine ⟨_, t, hrun, ?_, ht⟩
  rw [length_flatten_wordHex, List.length_map, hcount]
  omega

/-- The hex of whole blocks through a keyed block in the decrypting direction (R180). -/
theorem Keyed.decryptRawHex {k : Word64} {s : State} (h : Keyed k s) (ys : List Word64) :
    ∃ t, decryptRawHex (ys.map wordHex).flatten s =
      (.ok ((ys.map (crypt (keySchedule k).reverse)).map wordHex).flatten, t) ∧ Keyed k t := by
  have hblocks : splitIntoBlocks (ys.map wordHex).flatten = ys.map wordHex :=
    splitIntoBlocks_flatten _ (List.forall_mem_map.mpr fun y _ => length_wordHex y)
  rw [Machine.decryptRawHex, hblocks]
  exact h.blocksOp .decrypt ys

/-- A text's hex with padding reads back as the text without its trailing NUL characters (R174, R182). -/
theorem hexToText_padded (text : List Char) (n : Nat) :
    hexToText (textToHex text ++ List.replicate (2 * n) '0') = .ok (stripNulText text) := by
  have heven : (textToHex text ++ List.replicate (2 * n) '0').length % 2 = 0 := by
    rw [List.length_append, length_textToHex, List.length_replicate]; omega
  have hbytes : hexToBytes (textToHex text ++ List.replicate (2 * n) '0') =
      .ok (utf8Encode text ++ List.replicate n 0) := by
    rw [hexToBytes, if_pos heven, textToHex, hexPairs_hexOfBytes, hexPairs_zeros]
  rw [hexToText, hbytes]
  simp only [stripNul_append_zeros, stripNul_utf8Encode, utf8Decode_encode]

/-- Settles O54: the blocks come back, joined they are the text's hex with its padding, and the padding is stripped. -/
theorem textRoundTrip : Obligations.TextRoundTrip := by
  intro k s text h
  obtain ⟨xs, hxs⟩ := exists_words_of_text text
  obtain ⟨t, henc, ht⟩ := h.encryptText hxs
  obtain ⟨u, hdec, -⟩ := ht.decryptRawHex (xs.map (crypt (keySchedule k)))
  have hback : (xs.map (crypt (keySchedule k))).map (crypt (keySchedule k).reverse) = xs := by
    rw [List.map_map]
    exact List.map_id'' (crypt_reverse_crypt _) xs
  have hpad : ((textToHex text).length + 15) / 16 * 16 - (textToHex text).length =
      2 * (((utf8Encode text).length + 7) / 8 * 8 - (utf8Encode text).length) := by
    rw [length_textToHex]; omega
  refine ⟨_, t, u, henc, ?_⟩
  rw [hback, hxs, flatten_splitIntoBlocks, hpad] at hdec
  rw [decryptText, hdec]
  simp only [hexToText_padded]

/-! ### The assembler's lines (R84, R85) -/

/-- No character of the text is picked by `p`: it is one piece. -/
theorem cutAt_none {p : Char → Bool} {w : List Char} (h : ∀ ch ∈ w, p ch = false) : cutAt p w = [w] := by
  induction w with
  | nil => rfl
  | cons ch w ih =>
    rw [List.forall_mem_cons] at h
    simp only [cutAt, h.1, ih h.2]
    rfl

/-- A text is cut at the first character picked. -/
theorem cutAt_append {p : Char → Bool} {w rest : List Char} {sep : Char} (h : ∀ ch ∈ w, p ch = false)
    (hsep : p sep = true) : cutAt p (w ++ sep :: rest) = w :: cutAt p rest := by
  induction w with
  | nil => simp only [List.nil_append, cutAt, hsep, if_true]
  | cons ch w ih =>
    rw [List.forall_mem_cons] at h
    simp only [List.cons_append, cutAt, h.1, ih h.2]
    rfl

/-- A character that stays within a word of a line: neither a blank nor the start of a comment (R84). -/
def inWord (ch : Char) : Bool := !(ch == ' ' || ch == '\t' || ch == '\r' || ch == ';')

theorem inWord_hexDigit (v : BitVec 4) : inWord (hexDigit v) = true := by
  revert v; decide

/-- A mnemonic, a blank and an operand are two words (R84). -/
theorem lineWords_two {m hex : List Char} (hm : ∀ ch ∈ m, inWord ch = true) (hhex : ∀ ch ∈ hex, inWord ch = true)
    (hm0 : m ≠ []) (hhex0 : hex ≠ []) : lineWords (m ++ ' ' :: hex) = [m, hex] := by
  have hblank {ch : Char} (h : inWord ch = true) : (ch == ' ' || ch == '\t' || ch == '\r') = false := by
    simp_all [inWord]
  have hkept {ch : Char} (h : inWord ch = true) : (ch != ';') = true := by simp_all [inWord]
  have hline : (m ++ ' ' :: hex).takeWhile (· != ';') = m ++ ' ' :: hex := by
    refine List.takeWhile_eq_self_iff.mpr fun ch hch => ?_
    obtain hch | rfl | hch : ch ∈ m ∨ ch = ' ' ∨ ch ∈ hex := by simpa using hch
    · exact hkept (hm ch hch)
    · decide
    · exact hkept (hhex ch hch)
  rw [lineWords, hline, cutAt_append (fun ch hch => hblank (hm ch hch)) (by decide),
    cutAt_none fun ch hch => hblank (hhex ch hch)]
  simp [hm0, hhex0]

/-- A line of a mnemonic and a block's hex (R84). -/
theorem assembleLine_wordHex {m : List Char} (hm : ∀ ch ∈ m, inWord ch = true) (hm0 : m ≠ []) (x : Word64) :
    assembleLine (m ++ ' ' :: wordHex x) = asmWithOperand m (wordHex x) := by
  have hhex : ∀ ch ∈ wordHex x, inWord ch = true := fun ch hch => by
    obtain ⟨v, rfl⟩ := binaryToHex_wordBits_digits x ch hch
    exact inWord_hexDigit v
  have hhex0 : wordHex x ≠ [] := List.ne_nil_of_length_pos (by simp [length_wordHex])
  rw [assembleLine, lineWords_two hm hhex hm0 hhex0]

theorem asmOperand_wordHex (mk : BitVec 8 → Word64 → Instr) (x : Word64) :
    asmOperand mk (wordHex x) = .ok (mk 64 x) := by
  rw [asmOperand, wordHex, operandFields_binaryToHex]

/-- Settles O55: each line is a mnemonic and a block's hex, and the mnemonic selects the command. -/
theorem assemblerLines : Obligations.AssemblerLines := by
  refine fun x => ⟨?_, ?_, ?_, ?_⟩
  · refine (assembleLine_wordHex (m := ['L', 'O', 'A', 'D', 'K', 'E', 'Y']) (by simp [inWord]) nofun x).trans ?_
    rw [asmWithOperand, if_pos rfl, asmOperand_wordHex]
    rfl
  · refine (assembleLine_wordHex (m := ['E', 'N', 'C']) (by simp [inWord]) nofun x).trans ?_
    rw [asmWithOperand, if_neg (by decide), if_pos rfl, asmOperand_wordHex]
    rfl
  · refine (assembleLine_wordHex (m := ['D', 'E', 'C']) (by simp [inWord]) nofun x).trans ?_
    rw [asmWithOperand, if_neg (by decide), if_neg (by decide), if_pos rfl, asmOperand_wordHex]
    rfl
  · refine (assembleLine_wordHex (m := ['R', 'E', 'K', 'E', 'Y']) (by simp [inWord]) nofun x).trans ?_
    rw [asmWithOperand, if_neg (by decide), if_neg (by decide), if_neg (by decide), if_pos rfl, asmOperand_wordHex]
    rfl

end Sys2Proof.Machine
end
